-- ==== Sys2Proof/Word.lean ====
section
/-! DEFINITION. The word types of SPS30-FC and the plain names its operands range over (00_scope.md R7, R9, R11;
10_state.md R23; 20_memory.md R50; 30_encoding.md R81, R84). -/

namespace Sys2Proof

/-- A byte: 8 bits (R9). -/
abbrev Byte := BitVec 8

/-- A measurement word: the 32-bit pattern of a binary32 number, never interpreted by the block (R9, R24, R134). -/
abbrev Word32 := BitVec 32

/-- The value the host writes to `CW`: 16 bits (R9, R27). -/
abbrev CommandWord := BitVec 16

/-- `DELIM`, the first and last byte of every frame (R7). -/
def delim : Byte := 0x7E

/-- The four commands of the wire protocol, in the source's listing order (R84). -/
inductive Command where
  | startFan
  | stopFan
  | readMeasurements
  | readSerialNumber
deriving DecidableEq, Repr

/-- The source select `s` of the two parsers: `s = 0` reads `OUT`, `s = 1` reads `IN` (R80, R133). -/
inductive Source where
  | out
  | inp
deriving DecidableEq, Repr

/-- The byte spaces the host can read (R50, R51); `TPL` is configuration and has no host access. -/
inductive Space where
  | inp
  | out
  | sn
deriving DecidableEq, Repr

/-- The four values of `RES` (R23, R150). -/
inductive ResultCode where
  | ok
  | malformed
  | overflow
  | illegalOp
deriving DecidableEq, Repr

end Sys2Proof
end

