-- ==== Sys2Proof/Config.lean ====
section
/-! DEFINITION. The parameters of SPS30-FC (00_scope.md R8) and the value the spec leaves free (20_memory.md R52).
Each is an opaque constant without a body: no proof can see its value, so a theorem holds for every value
(DESIGN CHOICE, safe: notes/assumptions/2.md and 5.md). -/

namespace Sys2Proof

/-- How far `BUF_CAP` lies above its lower bound 94; its range is that of R8, `94 <= BUF_CAP <= 65535`. -/
opaque Config.capExtra : Fin 65442

/-- `BUF_CAP`, the capacity of `IN` and `OUT` (R8, D5). OPEN in the spec; only its range is known. -/
def Config.bufCap : Nat := Config.capExtra.val + 94

/-- `SN_CAP = BUF_CAP - 8`, the capacity of `SN` (R8, R29, D22). -/
def Config.snCap : Nat := Config.bufCap - 8

/-- A legal value of `TEMPLATE[c]`: a byte sequence under R8's constraints. A value that breaks one cannot be built.
The default values show that the constraints can be met, which an opaque constant of this type needs. -/
structure Config.Template where
  bytes    : List Byte := [delim, delim]
  two_le   : 2 ≤ bytes.length := by decide
  fits     : bytes.length ≤ Config.bufCap := by simp [Config.bufCap]
  first    : bytes.head? = some delim := by decide
  last     : bytes.getLast? = some delim := by decide
  interior : ∀ b ∈ bytes.tail.dropLast, b ≠ delim := by decide
deriving Inhabited

/-- `TEMPLATE[c]` (R8, R30, R76, D6). OPEN in the spec; only R8's constraints are known. -/
opaque Config.template : Command → Config.Template

/-- The byte a host read at or beyond a buffer's length returns: unspecified, a free draw (R52, U1).
The argument is the number of such draws made before, so no two draws need agree. -/
opaque Config.unspecifiedByte : Nat → Byte

end Sys2Proof
end

