-- ==== Sys2Proof/Syntax.lean ====
section
/-! DEFINITION. The eight operations of SPS30-FC, one constructor per row of the opcode table (30_encoding.md R82). -/

namespace Sys2Proof

/-- An operation of the block, "the analogue of an instruction" (R15). Its operands are those of R81 and no others;
sources and destinations are fixed by the operation (R20). -/
inductive Instr where
  | nop
  | clear
  | push (b : Byte)
  | build (c : Command)
  | destuff
  | stuff
  | parseMeas (s : Source)
  | parseSn (s : Source)
deriving DecidableEq, Repr

end Sys2Proof
end

