-- ==== Sys2Proof/WellFormed.lean ====
section
/-! DEFINITION. Which command words are legal (30_encoding.md R83), stated on the fields of R80 and independently of the
decoder. The operands of `Instr` are typed by their range (a byte, one of four commands, one of two sources: R81), so
every term of `Instr` is well-formed and the checks that can fail are those on command words. -/

namespace Sys2Proof

/-- Which field of a command word makes it illegal (R83). -/
inductive IllegalWord where
  /-- `opc` in 0x8..0xF. -/
  | opcode
  /-- A nonzero `rsv`. -/
  | reserved
  /-- `s = 1` on an operation other than PARSE_MEAS and PARSE_SN. -/
  | sourceSelect
  /-- A nonzero `imm8` where it must be 0, or nonzero `imm8[7:2]` on BUILD. -/
  | immediate
deriving DecidableEq, Repr

/-- R83 read as a check: `w` is legal when each of its fields is what its operation allows. Fields are taken by
division and remainder of the word's number (R80). -/
def CommandWord.wellFormed (w : CommandWord) : Bool :=
  let opc  := w.toNat / 4096
  let rsv  := w.toNat / 512 % 8
  let s    := w.toNat / 256 % 2
  let imm8 := w.toNat % 256
  opc < 8 && rsv = 0 && (s = 0 || opc = 6 || opc = 7) && (imm8 = 0 || opc = 2 || (opc = 3 && imm8 / 4 = 0))

/-- The operand ranges of R81. They hold of every term (`Laws.Instr.wellFormed_all`): the types enforce them. -/
def Instr.wellFormed : Instr → Bool
  | .nop => true
  | .clear => true
  | .push b => b.toNat < 256
  | .build c => c ∈ [.startFan, .stopFan, .readMeasurements, .readSerialNumber]
  | .destuff => true
  | .stuff => true
  | .parseMeas s => s ∈ [.out, .inp]
  | .parseSn s => s ∈ [.out, .inp]

end Sys2Proof
end

