-- ==== Sys2Proof/Decode.lean ====
section
/-! DEFINITION. The decoder of command words, total, rejecting by name (30_encoding.md R80 to R84), and after it the
encoder. The decoder is R82's table; the encoder is R85's column of command words. -/

namespace Sys2Proof

/-- `opc`, bits 15:12 (R80). -/
def CommandWord.opc (w : CommandWord) : BitVec 4 := w.extractLsb' 12 4

/-- `rsv`, bits 11:9 (R80). -/
def CommandWord.rsv (w : CommandWord) : BitVec 3 := w.extractLsb' 9 3

/-- `s`, bit 8 (R80). -/
def CommandWord.srcBit (w : CommandWord) : BitVec 1 := w.extractLsb' 8 1

/-- `imm8`, bits 7:0 (R80). -/
def CommandWord.imm8 (w : CommandWord) : Byte := w.extractLsb' 0 8

/-- The command number of R84 as a name. -/
def Command.ofNumber (c : BitVec 2) : Command :=
  if c = 0 then .startFan else if c = 1 then .stopFan else if c = 2 then .readMeasurements else .readSerialNumber

/-- The command number of R84. -/
def Command.number : Command → BitVec 2
  | .startFan => 0
  | .stopFan => 1
  | .readMeasurements => 2
  | .readSerialNumber => 3

/-- The source select bit as a name (R80). -/
def Source.ofBit (s : BitVec 1) : Source := if s = 0 then .out else .inp

/-- The source select bit (R80). -/
def Source.bit : Source → BitVec 1
  | .out => 0
  | .inp => 1

/-- One row of R82: `mtch`, `mask` and the operation with its operands assembled from the free fields (R81). -/
structure OpcodeRow where
  mtch  : CommandWord
  mask  : CommandWord
  instr : CommandWord → Instr

/-- `w` matches the row: `w & mask = match` (R82). -/
def OpcodeRow.fits (r : OpcodeRow) (w : CommandWord) : Bool := w &&& r.mask == r.mtch

/-- The opcode map of R82. -/
def opcodeRows : List OpcodeRow :=
  [ ⟨0x0000, 0xFFFF, fun _ => .nop⟩,
    ⟨0x1000, 0xFFFF, fun _ => .clear⟩,
    ⟨0x2000, 0xFF00, fun w => .push w.imm8⟩,
    ⟨0x3000, 0xFFFC, fun w => .build (Command.ofNumber (w.extractLsb' 0 2))⟩,
    ⟨0x4000, 0xFFFF, fun _ => .destuff⟩,
    ⟨0x5000, 0xFFFF, fun _ => .stuff⟩,
    ⟨0x6000, 0xFEFF, fun w => .parseMeas (Source.ofBit w.srcBit)⟩,
    ⟨0x7000, 0xFEFF, fun w => .parseSn (Source.ofBit w.srcBit)⟩ ]

/-- The first field, in the order of R83, that makes an unmatched word illegal. It only names the rejection: every
illegal word has the same effect (R162; DESIGN CHOICE, safe: notes/assumptions/10.md). -/
def illegalReason (w : CommandWord) : IllegalWord :=
  if 8 ≤ w.opc.toNat then .opcode
  else if w.rsv ≠ 0 then .reserved
  else if w.srcBit ≠ 0 ∧ w.opc.toNat < 6 then .sourceSelect
  else .immediate

/-- The operation a command word encodes: the first row of R82 that matches, else the word is illegal (R83). -/
def decode (w : CommandWord) : Except IllegalWord Instr :=
  match opcodeRows.find? (·.fits w) with
  | some r => .ok (r.instr w)
  | none => .error (illegalReason w)

/-- The command word of an operation (R82, R85). -/
def encode : Instr → CommandWord
  | .nop => 0x0000
  | .clear => 0x1000
  | .push b => (0x20 : BitVec 8) ++ b
  | .build c => (0x0C00 : BitVec 14) ++ c.number
  | .destuff => 0x4000
  | .stuff => 0x5000
  | .parseMeas s => (0x30 : BitVec 7) ++ s.bit ++ (0x00 : BitVec 8)
  | .parseSn s => (0x38 : BitVec 7) ++ s.bit ++ (0x00 : BitVec 8)

/-- The command word whose bits are the low `nbits` bits of `w`, the bits above them 0 (the numbering of
opcode_table.json, where bit 0 is the least significant bit of the one 16-bit word). -/
def tableWord (nbits w : Nat) : CommandWord := BitVec.ofNat 16 (w % 2 ^ nbits)

/-- The operation the decoder reads from a table word. A value that does not fit in 16 bits is no command word: all
command words are 16 bits (R80). -/
def decodeTableWord (nbits w : Nat) : Option Instr :=
  if w % 2 ^ nbits < 2 ^ 16 then (decode (tableWord nbits w)).toOption else none

end Sys2Proof
end

