-- ==== Sys2Proof/Machine/State.lean ====
section
/-! DEFINITION. The state of one SPS30-FC instance (10_state.md R20 to R35), the host's accesses to it (20_memory.md R51,
R60), and the reasons a step can stop. -/

namespace Sys2Proof.Machine

/-- The three byte buffers (R26, R28, R29, R50). A buffer is the sequence of its bytes below its length, so `IN_LEN`,
`OUT_LEN` and `SN_LEN` are the lengths of the sequences (`Memory.len`): bytes at or above a length "are not part of the
state" (R26), and equal memories are equal data (DESIGN CHOICE, safe: notes/assumptions/3.md). -/
structure Memory where
  /-- `IN` and `IN_LEN` (R26). -/
  inBuf  : List Byte
  /-- `OUT` and `OUT_LEN` (R28). -/
  outBuf : List Byte
  /-- `SN` and `SN_LEN` (R29). -/
  snBuf  : List Byte
deriving DecidableEq, Repr

/-- The architectural state: "exactly these components" (R20). `CW` holds nothing (R27) and there is no program counter
(R22); the parameters are in Config (R35). -/
structure Block where
  /-- `M[0..9]` (R24). -/
  m   : Vector Word32 10
  /-- `IN`, `OUT`, `SN` with their lengths. -/
  mem : Memory
  /-- `RES` (R23). -/
  res : ResultCode
  /-- `STATUS.MV` (R25). -/
  mv  : Bool
  /-- `STATUS.SV` (R25). -/
  sv  : Bool
deriving DecidableEq, Repr

/-- What the world outside can do to the block between two operations (DESIGN CHOICE, safe: notes/assumptions/1.md). -/
inductive HostEvent where
  /-- The host writes register `n` (R32). Only register 0, `CW`, looks at the value, and it is 16 bits wide (R27);
  for every other number the value is ignored whatever its width (notes/assumptions/9.md). -/
  | write (n : Nat) (v : BitVec 16)
  /-- The host reads register `n` (R32, R104). -/
  | readReg (n : Nat)
  /-- `HostRead(S, i)` (R51, R52). -/
  | readByte (sp : Space) (i : Nat)
  /-- Reset, "an event from outside the block" (R170). -/
  | reset
  /-- Two hosts drive the instance at once (R60, U5). -/
  | twoHosts
deriving DecidableEq, Repr

/-- What a host read delivered. -/
inductive HostReply where
  /-- A register read whole, zero-extended to 32 bits (R32, R56; DESIGN CHOICE, safe: notes/assumptions/9.md). -/
  | reg (v : Word32)
  /-- A buffer byte (R51, R52). -/
  | byte (b : Byte)
deriving DecidableEq, Repr

/-- The model's state: the block, and three fields of the model's own that stand for its surroundings. -/
structure State where
  /-- The architectural state of the instance (R20). -/
  block   : Block
  /-- The host's accesses still to come, in the order the host makes them (R60). The model's own field. -/
  pending : List HostEvent
  /-- What the host's reads have delivered so far, oldest first. The model's own field. -/
  replies : List HostReply
  /-- How many unspecified bytes have been drawn (R52); the next draw is `Config.unspecifiedByte draws`. The model's own
  field. -/
  draws   : Nat
deriving DecidableEq, Repr

/-- The block has no faults: every command word leads to a next state, and "nothing in the block is a hang or a stuck
state" (R161). So no step raises one, and the type has no constructor (DEDUCED, unsafe: notes/assumptions/11.md). -/
inductive Fault where
deriving DecidableEq, Repr

/-- Why a step gives no meaning. -/
inductive Refusal where
  /-- Raised by a refused arm of `exec`: the instruction of that mnemonic has no meaning yet. Safe. -/
  | notModelled (mnemonic : String)
  /-- Raised by `step` when two hosts drive one instance at once: "a model gives it no meaning (refuses it)" (R60).
  Safe: the run stops (DESIGN CHOICE: notes/assumptions/7.md). -/
  | twoHosts
deriving DecidableEq, Repr

/-- The outcome of a step of this machine. -/
abbrev Result := Host.Outcome State Fault Refusal

/-- The block right after reset (R33, R171): `M` zero, all lengths 0, `RES = OK`, `MV = SV = 0`. -/
def Block.reset : Block where
  m   := Vector.replicate 10 0
  mem := { inBuf := [], outBuf := [], snBuf := [] }
  res := .ok
  mv  := false
  sv  := false

/-- The machine right after reset. The model's own fields are empty: no access pending, nothing delivered, no byte
drawn (notes/assumptions/4.md, DESIGN CHOICE; no statement rests on the value of `draws`). -/
def State.reset : State where
  block   := Block.reset
  pending := []
  replies := []
  draws   := 0

end Sys2Proof.Machine
end

