-- ==== Sys2Proof/Machine/Flags.lean ====
section
/-! DEFINITION. The result code and the status flags as the bits the host reads (10_state.md R23, R25, R32). -/

namespace Sys2Proof

/-- The value of `RES` (R23). -/
def ResultCode.value : ResultCode → BitVec 2
  | .ok => 0
  | .malformed => 1
  | .overflow => 2
  | .illegalOp => 3

/-- Register 1 as read: bits[1:0] the result code, bits[15:2] zero (R32). -/
def Machine.resWord (c : ResultCode) : BitVec 16 := (0 : BitVec 14) ++ c.value

/-- Register 2 as read: bit 0 `MV`, bit 1 `SV`, bits[15:2] zero (R32). -/
def Machine.statusWord (mv sv : Bool) : BitVec 16 := (0 : BitVec 14) ++ BitVec.ofBool sv ++ BitVec.ofBool mv

end Sys2Proof
end

