-- ==== Sys2Proof/Machine/Ops.lean ====
section
/-! DEFINITION. The primitives of the spec's pseudocode (00_scope.md R13) over the buffers and registers: `MemRead`,
`MemWrite`, `S <- B`, `be32`, `raise`, `done`. -/

namespace Sys2Proof.Machine

/-- The bytes of buffer `sp` below its length. -/
def Memory.buf (m : Memory) : Space → List Byte
  | .inp => m.inBuf
  | .out => m.outBuf
  | .sn => m.snBuf

/-- `IN_LEN`, `OUT_LEN` or `SN_LEN` (R20). -/
def Memory.len (m : Memory) (sp : Space) : Nat := (m.buf sp).length

/-- The capacity of a buffer (R26, R28, R29). -/
def Memory.cap : Space → Nat
  | .inp => Config.bufCap
  | .out => Config.bufCap
  | .sn => Config.snCap

/-- Buffer `sp` replaced. -/
def Memory.setBuf (m : Memory) : Space → List Byte → Memory
  | .inp, bs => { m with inBuf := bs }
  | .out, bs => { m with outBuf := bs }
  | .sn, bs => { m with snBuf := bs }

/-- The canonical form: no buffer is longer than its capacity (R34). The bytes of a buffer of length n stand at the
indices 0..n-1, each once and in order, by the form of the data. -/
abbrev Memory.wf (m : Memory) : Prop := ∀ sp ∈ [Space.inp, .out, .sn], m.len sp ≤ Memory.cap sp

/-- One byte of a buffer: present below the length, absent at or above it (R50, R52). -/
def Memory.byte (m : Memory) (sp : Space) (i : Nat) : Option Byte := (m.buf sp)[i]?

/-- A buffer as pairs of an address, its index, and a byte, lowest address first. -/
def Memory.cells (m : Memory) (sp : Space) : List Host.Cell := (m.buf sp).zipIdx.map fun c => (c.2, c.1)

/-- `MemRead(S, i, n)`, for `i + n <= length of S` (R13). -/
def Memory.read (m : Memory) (sp : Space) (i n : Nat) : List Byte := ((m.buf sp).drop i).take n

/-- `MemWrite(S, i, |v|, v)`, for `i <= length of S` and `i + |v| <= capacity of S` (R13). A write that ends above the
length takes the bytes it stores into the buffer. -/
def Memory.write (m : Memory) (sp : Space) (i : Nat) (v : List Byte) : Memory :=
  m.setBuf sp ((m.buf sp).take i ++ v ++ (m.buf sp).drop (i + v.length))

/-- `S_LEN <- n`, for n no greater than the bytes held: the bytes at n and above leave the state (R26). -/
def Memory.setLen (m : Memory) (sp : Space) (n : Nat) : Memory := m.setBuf sp ((m.buf sp).take n)

/-- `S <- B`: `MemWrite(S, 0, |B|, B)` and `S_LEN <- |B|` (R13). -/
def Memory.assign (m : Memory) (sp : Space) (bs : List Byte) : Memory := (m.write sp 0 bs).setLen sp bs.length

/-- `be32`: four bytes to a word, most significant byte first (R13, R53). -/
def be32 (b0 b1 b2 b3 : Byte) : Word32 :=
  (b0.zeroExtend 32 <<< 24) ||| (b1.zeroExtend 32 <<< 16) ||| (b2.zeroExtend 32 <<< 8) ||| b3.zeroExtend 32

/-- `be-bytes`: a word to its four bytes, most significant byte first (R136). -/
def beBytes (w : Word32) : List Byte :=
  [w.extractLsb' 24 8, w.extractLsb' 16 8, w.extractLsb' 8 8, w.extractLsb' 0 8]

/-- `raise <Code>`: `RES` receives the code and the operation ends. It plays the part of taking an exception: no state is
saved, no mode or mask changes and control goes nowhere (R13, R155). There is no return from it: `RES` keeps the code
until the next operation overwrites it (R156). -/
def Block.raise (c : ResultCode) (b : Block) : Block := { b with res := c }

/-- `done`: `RES <- OK` and the operation ends (R13). -/
def Block.done (b : Block) : Block := b.raise .ok

/-- The operation has ended in one atomic step with the block as given (R57, R60). -/
def State.complete (s : State) (b : Block) : Result := .next { s with block := b }

/-- The effect of an illegal command word: `RES <- ILLEGAL_OP` and nothing else (R100, R162; a next state and not a
refusal, DESIGN CHOICE between the two R162 allows: notes/assumptions/8.md). -/
def illegalOp (s : State) : Result := s.complete (s.block.raise .illegalOp)

end Sys2Proof.Machine
end

