-- ==== Sys2Proof/Machine/Operands.lean ====
section
/-! DEFINITION. The operand forms: the parsers' source select and the command of BUILD (30_encoding.md R81, R84;
42_responseparser.md R133). PUSH's `imm8` is used as it stands. -/

namespace Sys2Proof

/-- The buffer a parser reads: `OUT` for `s = 0`, `IN` for `s = 1` (R133). -/
def Source.space : Source → Space
  | .out => .out
  | .inp => .inp

/-- `F <- MemRead(OUT, 0, OUT_LEN)` or `F <- MemRead(IN, 0, IN_LEN)` (R131, R141). -/
def Machine.selectedFrame (s : Source) (m : Memory) : List Byte := m.read s.space 0 (m.len s.space)

/-- The reference function `template(c)`: the constant bytes of the command's template (R110). -/
def Machine.template (c : Command) : List Byte := (Config.template c).bytes

end Sys2Proof
end

