-- ==== Sys2Proof/Machine/BufferOps.lean ====
section
/-! DEFINITION. NOP, CLEAR and PUSH (40_host_buffer_ops.md R101 to R103). -/

namespace Sys2Proof.Machine

/-- NOP: `done` (R101). -/
def execNop (s : State) : Result := s.complete s.block.done

/-- CLEAR: `IN_LEN <- 0`, `done` (R102). -/
def execClear (s : State) : Result :=
  s.complete { s.block with mem := s.block.mem.setLen .inp 0 }.done

/-- PUSH b: the byte goes to index `IN_LEN` of `IN` and `IN_LEN` grows by one; a full buffer raises `OVERFLOW` and the
byte is dropped (R103). -/
def execPush (b : Byte) (s : State) : Result :=
  if s.block.mem.len .inp = Config.bufCap then s.complete (s.block.raise .overflow)
  else s.complete { s.block with mem := s.block.mem.write .inp (s.block.mem.len .inp) [b] }.done

end Sys2Proof.Machine
end

