-- ==== Sys2Proof/Machine/FrameCodec.lean ====
section
/-! DEFINITION. The frame codec: the escape table, `destuff`, `stuff`, the wire frame, and BUILD, DESTUFF and STUFF
(30_encoding.md R70 to R77; 41_framecodec.md R110 to R122). -/

namespace Sys2Proof.Machine

/-- `ESC`, the first byte of every escape pair (R7). -/
def esc : Byte := 0x7D

/-- `tab`: the second byte of an escape pair to the byte the pair stands for (R72, R113). -/
def tab (b : Byte) : Option Byte :=
  if b = 0x5E then some 0x7E
  else if b = 0x5D then some 0x7D
  else if b = 0x31 then some 0x11
  else if b = 0x33 then some 0x13
  else none

/-- The reference function `destuff`: one pass from index 0 upward; at each position all four entries are tried, the
output is never examined again, and no other byte is altered (R113). -/
def destuff : List Byte → List Byte
  | [] => []
  | [x] => [x]
  | x :: y :: rest =>
    match if x = esc then tab y else none with
    | some v => v :: destuff rest
    | none => x :: destuff (y :: rest)

/-- What one content byte becomes on the wire: one of the four escape pairs, or itself (R72, R120). -/
def stuffByte (b : Byte) : List Byte :=
  if b = 0x7E then [esc, 0x5E]
  else if b = 0x7D then [esc, 0x5D]
  else if b = 0x11 then [esc, 0x31]
  else if b = 0x13 then [esc, 0x33]
  else [b]

/-- The reference function `stuff` (R120). -/
def stuff (bs : List Byte) : List Byte := bs.flatMap stuffByte

/-- The wire frame of content bytes `c`: the two delimiters are outside the stuffed part and never escaped (R70). -/
def wireFrame (c : List Byte) : List Byte := [delim] ++ stuff c ++ [delim]

/-- One step of the byte-serial destuffer: the bytes emitted for input byte `b` and the next `esc` bit (R118). -/
def serialStep (held : Bool) (b : Byte) : List Byte × Bool :=
  if held then
    match tab b with
    | some v => ([v], false)
    | none => if b = esc then ([esc], true) else ([esc, b], false)
  else if b = esc then ([], true) else ([b], false)

/-- The byte-serial destuffer from a given `esc` bit to the end of its input, with the final flush (R118). -/
def serialDestuff : Bool → List Byte → List Byte
  | held, [] => if held then [esc] else []
  | held, b :: rest => (serialStep held b).1 ++ serialDestuff (serialStep held b).2 rest

/-- One whole-buffer pass that replaces every pair `esc y` by `v`: a step of the form that is NOT the block's (R119). -/
def replacePair (y v : Byte) : List Byte → List Byte
  | [] => []
  | [x] => [x]
  | x :: z :: rest => if x = esc ∧ z = y then v :: replacePair y v rest else x :: replacePair y v (z :: rest)

/-- Four successive whole-buffer passes in table order: what the block does NOT do (R119). -/
def destuffFourPass (bs : List Byte) : List Byte :=
  replacePair 0x33 0x13 (replacePair 0x31 0x11 (replacePair 0x5D 0x7D (replacePair 0x5E 0x7E bs)))

/-- BUILD c: `OUT` becomes the command's template, delivered verbatim (R111). -/
def execBuild (c : Command) (s : State) : Result :=
  s.complete { s.block with mem := s.block.mem.assign .out (template c) }.done

/-- DESTUFF: `OUT` becomes `destuff` of `IN` (R114). -/
def execDestuff (s : State) : Result :=
  let x := s.block.mem.read .inp 0 (s.block.mem.len .inp)
  s.complete { s.block with mem := s.block.mem.assign .out (destuff x) }.done

/-- STUFF: `OUT` becomes `stuff` of `IN`; a result longer than `BUF_CAP` raises `OVERFLOW` and changes no buffer (R121). -/
def execStuff (s : State) : Result :=
  let y := stuff (s.block.mem.read .inp 0 (s.block.mem.len .inp))
  if Config.bufCap < y.length then s.complete (s.block.raise .overflow)
  else s.complete { s.block with mem := s.block.mem.assign .out y }.done

end Sys2Proof.Machine
end

