-- ==== Sys2Proof/Machine/ResponseParser.lean ====
section
/-! DEFINITION. The response parsers and PARSE_MEAS and PARSE_SN (42_responseparser.md R130 to R144). -/

namespace Sys2Proof.Machine

/-- `HDR_LEN`: header bytes both parsers discard (R7). -/
def hdrLen : Nat := 5

/-- `SN_TRL_LEN`: trailer bytes `parseSerialNumber` discards (R7). -/
def snTrlLen : Nat := 3

/-- `MEAS_FRAME_LEN = 5 + 40 + 2`: the only length `parseMeasurements` accepts (R7, R130). -/
def measFrameLen : Nat := 47

/-- Word `k` of a 47-byte clean frame: the bytes at indices `5 + 4k` to `8 + 4k`, big-endian (R73, R130). -/
def measWord (f : List Byte) (h : f.length = measFrameLen) (k : Fin 10) : Word32 :=
  have at5 (j : Fin 4) : hdrLen + 4 * k + j < f.length := by rw [h, hdrLen, measFrameLen]; omega
  be32 (f[hdrLen + 4 * k + 0]'(at5 0)) (f[hdrLen + 4 * k + 1]'(at5 1)) (f[hdrLen + 4 * k + 2]'(at5 2))
    (f[hdrLen + 4 * k + 3]'(at5 3))

/-- The reference function `parseMeasurements`: ten words, or `fail` when the length is not 47 (R130). Nothing else is
checked (R137). -/
def parseMeasurements (f : List Byte) : Option (Vector Word32 10) :=
  if h : f.length = measFrameLen then some (Vector.ofFn (measWord f h)) else none

/-- A byte is ASCII exactly when it is below 0x80 (R142). -/
def isAscii (b : Byte) : Bool := b.toNat < 0x80

/-- The bytes `parseSerialNumber` takes as text: indices 5 to n-4, none when n <= 8 (R140, R143). -/
def snText (f : List Byte) : List Byte :=
  if f.length ≤ hdrLen + snTrlLen then [] else (f.drop hdrLen).take (f.length - (hdrLen + snTrlLen))

/-- The reference function `parseSerialNumber`: the text, or `fail` when one of its bytes is not ASCII (R140). -/
def parseSerialNumber (f : List Byte) : Option (List Byte) :=
  if (snText f).all isAscii then some (snText f) else none

/-- PARSE_MEAS s: the ten words of the selected buffer and `MV = 1`, or ten zeros, `MV = 0` and `MALFORMED` (R131, R132). -/
def execParseMeas (src : Source) (s : State) : Result :=
  match parseMeasurements (selectedFrame src s.block.mem) with
  | some v => s.complete { s.block with m := v, mv := true }.done
  | none => s.complete ({ s.block with m := Vector.replicate 10 0, mv := false }.raise .malformed)

/-- PARSE_SN s: the text of the selected buffer and `SV = 1`, or an empty `SN`, `SV = 0` and `MALFORMED` (R141). -/
def execParseSn (src : Source) (s : State) : Result :=
  match parseSerialNumber (selectedFrame src s.block.mem) with
  | some t => s.complete { s.block with mem := s.block.mem.assign .sn t, sv := true }.done
  | none => s.complete ({ s.block with mem := s.block.mem.setLen .sn 0, sv := false }.raise .malformed)

end Sys2Proof.Machine
end

