-- ==== Sys2Proof/Machine/Dispatch.lean ====
section
/-! DEFINITION. One arm per operation: its meaning (30_encoding.md R82, column Rule). -/

namespace Sys2Proof.Machine

def exec (i : Instr) (s : State) : Host.Outcome State Fault Refusal :=
  match i with
  | .nop => Sys2Proof.Machine.execNop s
  | .clear => Sys2Proof.Machine.execClear s
  | .push b => Sys2Proof.Machine.execPush b s
  | .build c => Sys2Proof.Machine.execBuild c s
  | .destuff => Sys2Proof.Machine.execDestuff s
  | .stuff => Sys2Proof.Machine.execStuff s
  | .parseMeas src => Sys2Proof.Machine.execParseMeas src s
  | .parseSn src => Sys2Proof.Machine.execParseSn src s

end Sys2Proof.Machine
end

