-- ==== Sys2Proof/Machine/HostPort.lean ====
section
/-! DEFINITION. The host's side of the block other than issuing an operation: register reads by number, buffer reads by
index, ignored writes, reset, idling (10_state.md R27, R32; 20_memory.md R51, R52, R60; 70_reset_and_hazards.md R170). -/

namespace Sys2Proof.Machine

/-- The number of `CW`, the one register whose write issues an operation (R32). -/
def cwNumber : Nat := 0

/-- The width in bits of the register with number `n`; none from number 26 on, where R32 gives no width. -/
def regWidth (n : Nat) : Option Nat :=
  if n < 16 then some 16 else if n < 26 then some 32 else none

/-- What a read of register `n` delivers, zero-extended to 32 bits (R32). `CW` and the reserved numbers read 0. -/
def Block.readReg (b : Block) (n : Nat) : Word32 :=
  if h : 16 ≤ n ∧ n < 26 then b.m[n - 16]
  else match n with
    | 1 => (resWord b.res).zeroExtend 32
    | 2 => (statusWord b.mv b.sv).zeroExtend 32
    | 3 => (BitVec.ofNat 16 (b.mem.len .inp)).zeroExtend 32
    | 4 => (BitVec.ofNat 16 (b.mem.len .out)).zeroExtend 32
    | 5 => (BitVec.ofNat 16 (b.mem.len .sn)).zeroExtend 32
    | _ => 0

/-- A read of register `n`: its value is delivered and the block is unchanged (R58, R104). -/
def hostReadReg (n : Nat) (s : State) : Result :=
  .next { s with replies := s.replies ++ [.reg (s.block.readReg n)] }

/-- `HostRead(S, i)`: the byte at index `i`, and at or beyond the length an unspecified byte, drawn afresh (R51, R52). The
block is unchanged (DESIGN CHOICE, safe: notes/assumptions/5.md). -/
def hostReadByte (sp : Space) (i : Nat) (s : State) : Result :=
  match s.block.mem.byte sp i with
  | some b => .next { s with replies := s.replies ++ [.byte b] }
  | none => .next { s with replies := s.replies ++ [.byte (Config.unspecifiedByte s.draws)], draws := s.draws + 1 }

/-- A write to a read-only or reserved register is ignored: no state changes, `RES` is not written (R32). -/
def ignoredWrite (s : State) : Result := .next s

/-- Reset puts the block in its reset state (R170, R171). It is the host's surroundings that stay: what the host still
means to do and what it has read (DEDUCED, safe: notes/assumptions/13.md). -/
def resetBlock (s : State) : Result := .next { s with block := Block.reset }

/-- No host access is pending: the block is idle and nothing changes (R167; DEDUCED, safe: notes/assumptions/6.md). -/
def idle (s : State) : Result := .next s

end Sys2Proof.Machine
end

