-- ==== Sys2Proof/Machine/Step.lean ====
section
/-! DEFINITION. One step: the block serves the host's next access to its end (20_memory.md R60; 40_host_buffer_ops.md
R100). The block fetches nothing (10_state.md R22): a command word comes from the host's write to `CW` (DESIGN CHOICE, safe:
notes/assumptions/1.md). -/

namespace Sys2Proof.Machine

/-- The write of `w` to `CW`: decode, then the operation's rule or `ILLEGAL_OP` (R100, R154). -/
def issue (w : CommandWord) (s : State) : Result :=
  match decode w with
  | .ok i => exec i s
  | .error _ => illegalOp s

/-- One host access, or a reset, served as one atomic step (R60). -/
def serve (e : HostEvent) (s : State) : Result :=
  match e with
  | .write n v => if n = cwNumber then issue v s else ignoredWrite s
  | .readReg n => hostReadReg n s
  | .readByte sp i => hostReadByte sp i s
  | .reset => resetBlock s
  | .twoHosts => .refused .twoHosts

/-- One step: the oldest pending access is taken from the queue and served. -/
def step (s : State) : Host.Outcome State Fault Refusal :=
  match s.pending with
  | [] => idle s
  | e :: rest => serve e { s with pending := rest }

/-- `s` with a host write of the table word to `CW` as the very next access. -/
def State.withFetchWord (s : State) (nbits w : Nat) : State :=
  { s with pending := .write cwNumber (tableWord nbits w) :: s.pending }

end Sys2Proof.Machine
end

