-- ==== Sys2Proof/Machine/Assembler.lean ====
section
/-! DEFINITION. The assembler syntax and the pseudo-operations of the spec's programs (30_encoding.md R85, R86). A line is
a list of characters. -/

namespace Sys2Proof.Machine

/-- A line of a program: an operation of R85 or a pseudo-operation of R86. -/
inductive AsmLine where
  | op (i : Instr)
  | load (bs : List Byte)
  | decodeMeas
  | decodeSn
deriving DecidableEq, Repr

/-- `LOAD b0 ... b(n-1)`: `CLEAR`, then one `PUSH` per byte (R86). -/
def loadOps (bs : List Byte) : List Instr := .clear :: bs.map .push

/-- The operations of a line (R86). -/
def AsmLine.expand : AsmLine → List Instr
  | .op i => [i]
  | .load bs => loadOps bs
  | .decodeMeas => [.destuff, .parseMeas .out]
  | .decodeSn => [.destuff, .parseSn .out]

/-- The command words of a line, in the order the host writes them (R85, R86). -/
def AsmLine.words (l : AsmLine) : List CommandWord := l.expand.map encode

/-- A hexadecimal digit's value. -/
def digitValue (c : Char) : Option Nat :=
  if '0'.toNat ≤ c.toNat ∧ c.toNat ≤ '9'.toNat then some (c.toNat - '0'.toNat)
  else if 'A'.toNat ≤ c.toNat ∧ c.toNat ≤ 'F'.toNat then some (c.toNat - 'A'.toNat + 10)
  else if 'a'.toNat ≤ c.toNat ∧ c.toNat ≤ 'f'.toNat then some (c.toNat - 'a'.toNat + 10)
  else none

/-- The digits of a number in the given base, most significant first, after those that gave `acc`. -/
def digitsValue (base : Nat) : Nat → List Char → Option Nat
  | acc, [] => some acc
  | acc, c :: cs =>
    match digitValue c with
    | some d => if d < base then digitsValue base (base * acc + d) cs else none
    | none => none

/-- A number: decimal, or hexadecimal with `0x` (R11, R85). -/
def parseNumber : List Char → Option Nat
  | '0' :: 'x' :: d :: ds => digitsValue 16 0 (d :: ds)
  | d :: ds => digitsValue 10 0 (d :: ds)
  | [] => none

/-- A byte of LOAD's operand, a byte sequence: two hexadecimal digits (R11; DEDUCED, safe: notes/assumptions/12.md). -/
def parseSeqByte : List Char → Option Byte
  | [a, b] => (digitsValue 16 0 [a, b]).map (BitVec.ofNat 8)
  | _ => none

/-- PUSH's operand: a number in 0..255 (R85). -/
def parsePushByte (cs : List Char) : Option Byte :=
  (parseNumber cs).bind fun n => if n < 256 then some (BitVec.ofNat 8 n) else none

/-- BUILD's operand: a command's name, or its number in 0..3 (R84, R85). -/
def parseCommand (cs : List Char) : Option Command :=
  if cs = "START_FAN".toList then some .startFan
  else if cs = "STOP_FAN".toList then some .stopFan
  else if cs = "READ_MEASUREMENTS".toList then some .readMeasurements
  else if cs = "READ_SERIAL_NUMBER".toList then some .readSerialNumber
  else (parseNumber cs).bind fun n => if n < 4 then some (Command.ofNumber (BitVec.ofNat 2 n)) else none

/-- A parser's operand: `OUT` or `IN` (R85). -/
def parseSource (cs : List Char) : Option Source :=
  if cs = "OUT".toList then some .out else if cs = "IN".toList then some .inp else none

/-- The words of a line that spaces separate (DESIGN CHOICE, safe: notes/assumptions/12.md); `cur` holds, in reverse, the word being read. -/
def tokens (cur : List Char) : List Char → List (List Char)
  | [] => if cur = [] then [] else [cur.reverse]
  | c :: cs =>
    if c = ' ' then (if cur = [] then tokens [] cs else cur.reverse :: tokens [] cs)
    else tokens (c :: cur) cs

/-- A line's words read as an operation or pseudo-operation: the mnemonic in capitals, then its operands. -/
def parseTokens : List (List Char) → Option AsmLine
  | [] => none
  | mn :: args =>
    if mn = "LOAD".toList then (args.mapM parseSeqByte).map .load
    else match args with
      | [] =>
        if mn = "NOP".toList then some (.op .nop)
        else if mn = "CLEAR".toList then some (.op .clear)
        else if mn = "DESTUFF".toList then some (.op .destuff)
        else if mn = "STUFF".toList then some (.op .stuff)
        else if mn = "DECODE_MEAS".toList then some .decodeMeas
        else if mn = "DECODE_SN".toList then some .decodeSn
        else none
      | [a] =>
        if mn = "PUSH".toList then (parsePushByte a).map (.op ∘ .push)
        else if mn = "BUILD".toList then (parseCommand a).map (.op ∘ .build)
        else if mn = "PARSE_MEAS".toList then (parseSource a).map (.op ∘ .parseMeas)
        else if mn = "PARSE_SN".toList then (parseSource a).map (.op ∘ .parseSn)
        else none
      | _ => none

/-- The command words of a line of text; a `;` starts a comment, and a line without words has no command word (R85). -/
def assembleLine (line : List Char) : Option (List CommandWord) :=
  match tokens [] (line.takeWhile (· ≠ ';')) with
  | [] => some []
  | ts => (parseTokens ts).map AsmLine.words

/-- The command words of a program of one line per operation (R85). -/
def assemble (lines : List (List Char)) : Option (List CommandWord) :=
  (lines.mapM assembleLine).map List.flatten

end Sys2Proof.Machine
end

