-- ==== Sys2Proof/Safety.lean ====
section
/-! DEFINITION. The terms in which claims speak of runs: the invariant of R34, the states a run reaches, the events a host
may cause, and the command words of a run (10_state.md R34; 20_memory.md R60; 70_reset_and_hazards.md R173). -/

namespace Sys2Proof.Machine

/-- R34: what holds of the block in every reachable state. That `RES` is one of four codes is its type. -/
structure Block.Inv (b : Block) : Prop where
  /-- `IN_LEN <= BUF_CAP`, `OUT_LEN <= BUF_CAP`, `SN_LEN <= SN_CAP`. -/
  mem_wf : b.mem.wf
  /-- Every byte of `SN[0..SN_LEN)` is below 0x80. -/
  sn_ascii : ∀ c ∈ b.mem.snBuf, c.toNat < 0x80
  /-- If `MV = 0` then every `M[k]` is zero. -/
  m_zero : b.mv = false → ∀ k : Fin 10, b.m[k] = 0
  /-- If `SV = 0` then `SN_LEN = 0`. -/
  sn_empty : b.sv = false → b.mem.len .sn = 0

/-- The states a run reaches: from reset, with any accesses of the host still to come, by any number of steps. -/
inductive Reachable : State → Prop where
  | reset (events : List HostEvent) : Reachable { State.reset with pending := events }
  | step (s t : State) : Reachable s → Machine.step s = .next t → Reachable t

/-- `x` holds an escape pair: a 0x7D followed by a second byte of the table (R77, R115). -/
def HasEscapePair (x : List Byte) : Prop := ∃ i y v, x[i]? = some esc ∧ x[i + 1]? = some y ∧ tab y = some v

/-- The clean bytes of a measurement response: header, the ten words big-endian, trailer (R73, R136). -/
def measFrame (hdr : List Byte) (v : Vector Word32 10) (trl : List Byte) : List Byte :=
  hdr ++ v.toList.flatMap beBytes ++ trl

/-- The host's writes of the command words `ws` to `CW`, in order (R80, R173). -/
def commandWrites (ws : List CommandWord) : List HostEvent := ws.map (.write cwNumber)

/-- `s` with the operations `is` as the host's only accesses still to come. -/
def State.withOps (s : State) (is : List Instr) : State := { s with pending := commandWrites (is.map encode) }

/-- `k` steps of the machine. -/
def run (k : Nat) (s : State) : Result := Host.Core.run Sys2Proof.core k s

/-- The operations that may write a component, by the column "Written by" of R20. -/
def writesIn : Instr → Bool
  | .clear | .push _ => true
  | .nop | .build _ | .destuff | .stuff | .parseMeas _ | .parseSn _ => false

/-- R20, row `OUT`. -/
def writesOut : Instr → Bool
  | .build _ | .destuff | .stuff => true
  | .nop | .clear | .push _ | .parseMeas _ | .parseSn _ => false

/-- R20, rows `M` and `STATUS.MV`. -/
def writesMeas : Instr → Bool
  | .parseMeas _ => true
  | .nop | .clear | .push _ | .build _ | .destuff | .stuff | .parseSn _ => false

/-- R20, rows `SN` and `STATUS.SV`. -/
def writesSn : Instr → Bool
  | .parseSn _ => true
  | .nop | .clear | .push _ | .build _ | .destuff | .stuff | .parseMeas _ => false

end Sys2Proof.Machine
end

