-- ==== Sys2Proof/Certificates/Slice0/Obligations.lean ====
section
/-! DEFINITION. The statements about SPS30-FC that the provers are asked for. Each docstring names the rule of spec/ it
formalises. "Next state" is `.next`; `s.block` is the architectural state of R20. Where the spec marks a rule
`[derived: ...]` (R34, R58, R71, R115 to R118, R122, R136, R152, R172, and parts of R8, R72, R86 and R119), the rule is
the spec's own inference from its other rules, and OBLIGATIONS.json gives the statement the basis `derived`. The step's queue
of host accesses, the replies and the free value's counter are the model's own (notes/assumptions/1.md, 4.md, 5.md). -/

open Sys2Proof Sys2Proof.Machine

/-! ### Command words (30_encoding.md Part B) -/

/-- Decoding an encoded operation gives it back, with every operand at every value (R81, R82, R85). -/
def Obligations.DecodeInvertsEncode : Prop :=
  ∀ i : Instr, i.wellFormed = true → decode (encode i) = .ok i

/-- Every legal command word is the encoding of the one operation it decodes to (R82). -/
def Obligations.EncodeInvertsDecode : Prop :=
  ∀ (w : CommandWord) (i : Instr), decode w = .ok i → encode i = w

/-- R82: each row of the opcode map with its free field, no word outside the map, rows without overlap, 268 legal words. -/
def Obligations.OpcodeMapSelectsTheOperation : Prop :=
  (∀ w : CommandWord, w &&& 0xFFFF = 0x0000 → decode w = .ok .nop) ∧
  (∀ w : CommandWord, w &&& 0xFFFF = 0x1000 → decode w = .ok .clear) ∧
  (∀ w : CommandWord, w &&& 0xFF00 = 0x2000 → decode w = .ok (.push (w.setWidth 8))) ∧
  (∀ w : CommandWord, w &&& 0xFFFC = 0x3000 → decode w = .ok (.build (Command.ofNumber (w.setWidth 2)))) ∧
  (∀ w : CommandWord, w &&& 0xFFFF = 0x4000 → decode w = .ok .destuff) ∧
  (∀ w : CommandWord, w &&& 0xFFFF = 0x5000 → decode w = .ok .stuff) ∧
  (∀ w : CommandWord, w &&& 0xFEFF = 0x6000 → decode w = .ok (.parseMeas (if w.getLsbD 8 then .inp else .out))) ∧
  (∀ w : CommandWord, w &&& 0xFEFF = 0x7000 → decode w = .ok (.parseSn (if w.getLsbD 8 then .inp else .out))) ∧
  (∀ w : CommandWord, w &&& 0xFFFF ∉ [(0x0000 : CommandWord), 0x1000, 0x4000, 0x5000] → w &&& 0xFF00 ≠ 0x2000 →
    w &&& 0xFFFC ≠ 0x3000 → w &&& 0xFEFF ∉ [(0x6000 : CommandWord), 0x7000] → ∃ e, decode w = .error e) ∧
  (opcodeRows.Pairwise fun r r' => ∀ w, ¬ (r.fits w = true ∧ r'.fits w = true)) ∧
  (∃ legal : List CommandWord, legal.Nodup ∧ legal.length = 268 ∧ ∀ w, w ∈ legal ↔ ∃ i, decode w = .ok i)

/-- R83 and R162: which words are illegal, field by field; that the write of one to `CW` sets `RES` to `ILLEGAL_OP` and
changes nothing else of the block; and that the next legal word executes normally. -/
def Obligations.IllegalWordsOnlyWriteRes : Prop :=
  (∀ w : CommandWord, (∃ e, decode w = .error e) ↔
    (8 ≤ w.toNat / 4096 ∨
     w.toNat / 512 % 8 ≠ 0 ∨
     (w.toNat / 256 % 2 = 1 ∧ w.toNat / 4096 ≠ 6 ∧ w.toNat / 4096 ≠ 7) ∨
     (w.toNat % 256 ≠ 0 ∧ w.toNat / 4096 ∈ [0, 1, 4, 5, 6, 7]) ∨
     (w.toNat % 256 / 4 ≠ 0 ∧ w.toNat / 4096 = 3))) ∧
  (∀ (s : State) (rest : List HostEvent) (w : CommandWord) (e : IllegalWord),
    s.pending = .write 0 w :: rest → decode w = .error e →
      step s = .next { s with pending := rest, block := { s.block with res := .illegalOp } }) ∧
  (∀ (s : State) (rest : List HostEvent) (w w' : CommandWord) (e : IllegalWord) (i : Instr),
    s.pending = .write 0 w :: .write 0 w' :: rest → decode w = .error e → decode w' = .ok i →
      run 2 s = exec i { s with pending := rest, block := { s.block with res := .illegalOp } })

/-- A rejected word is rejected by the name of a field whose value R83 forbids in that word, and the words that pass the
check of WellFormed.lean are the words that decode. That a rejection has a name, and which one, is the model's choice
(DESIGN CHOICE, notes/assumptions/10.md); that the named field is an illegal one is R83's. -/
def Obligations.RejectionNamesAnOffendingField : Prop :=
  (∀ w : CommandWord, w.wellFormed = true ↔ ∃ i, decode w = .ok i) ∧
  (∀ w : CommandWord, decode w = .error .opcode → 8 ≤ w.toNat / 4096) ∧
  (∀ w : CommandWord, decode w = .error .reserved → w.toNat / 512 % 8 ≠ 0) ∧
  (∀ w : CommandWord, decode w = .error .sourceSelect → w.toNat / 256 % 2 = 1 ∧ w.toNat / 4096 < 6) ∧
  (∀ w : CommandWord, decode w = .error .immediate →
    (w.toNat % 256 ≠ 0 ∧ w.toNat / 4096 ∈ [0, 1, 4, 5, 6, 7]) ∨ (w.toNat % 256 / 4 ≠ 0 ∧ w.toNat / 4096 = 3))

/-- Words written out from R82's bit positions decode to the operation they stand for, one or more of every family
(95_test_vectors.md V-E1 to V-E21). -/
def Obligations.SampleCommandWordsDecode : Prop :=
  decode 0x0000 = .ok .nop ∧ decode 0x1000 = .ok .clear ∧ decode 0x20FF = .ok (.push 0xFF) ∧
  decode 0x3003 = .ok (.build .readSerialNumber) ∧ decode 0x3001 = .ok (.build .stopFan) ∧
  decode 0x4000 = .ok .destuff ∧ decode 0x5000 = .ok .stuff ∧
  decode 0x6000 = .ok (.parseMeas .out) ∧ decode 0x6100 = .ok (.parseMeas .inp) ∧
  decode 0x7000 = .ok (.parseSn .out) ∧ decode 0x7100 = .ok (.parseSn .inp) ∧
  decode 0x0001 = .error .immediate ∧ decode 0x1100 = .error .sourceSelect ∧ decode 0x2200 = .error .reserved ∧
  decode 0x8000 = .error .opcode

/-- A step whose oldest access is a write of a legal word to `CW` is the decoded operation's meaning, at the state without
that access (R100); and a table word placed by `withFetchWord` is that next access. -/
def Obligations.StepRunsTheDecodedOperation : Prop :=
  (∀ (s : State) (rest : List HostEvent) (w : CommandWord) (i : Instr),
    s.pending = .write 0 w :: rest → decode w = .ok i → step s = exec i { s with pending := rest }) ∧
  (∀ (s : State) (w : CommandWord) (i : Instr),
    decode w = .ok i → step (s.withFetchWord 16 w.toNat) = exec i s)

/-! ### What each operation does: its result, that it completes, and its frame -/

/-- R101. -/
def Obligations.NopOnlySetsResOk : Prop :=
  decode 0x0000 = .ok .nop ∧
  ∀ s : State, exec .nop s = .next { s with block := { s.block with res := .ok } }

/-- R102. -/
def Obligations.ClearEmptiesIn : Prop :=
  decode 0x1000 = .ok .clear ∧
  ∀ s : State, exec .clear s =
    .next { s with block := { s.block with mem := { s.block.mem with inBuf := [] }, res := .ok } }

/-- R103: a full buffer drops the byte; otherwise the byte goes to index `IN_LEN`, and `IN_LEN + 1` fits in 16 bits. -/
def Obligations.PushAppendsOrOverflows : Prop :=
  ∀ (b : Byte) (s : State),
    decode (0x2000 + b.setWidth 16) = .ok (.push b) ∧
    (s.block.mem.inBuf.length = Config.bufCap →
      exec (.push b) s = .next { s with block := { s.block with res := .overflow } }) ∧
    (s.block.mem.inBuf.length ≠ Config.bufCap →
      exec (.push b) s = .next { s with block := { s.block with
        mem := { s.block.mem with inBuf := s.block.mem.inBuf ++ [b] }, res := .ok } }) ∧
    (s.block.mem.inBuf.length < Config.bufCap → s.block.mem.inBuf.length + 1 < 2 ^ 16)

/-- R110 and R111: `OUT` is the command's template, for arbitrary templates, whatever the prior state; it always fits. -/
def Obligations.BuildDeliversTheTemplate : Prop :=
  (∀ (c : Command) (s : State), exec (.build c) s = .next { s with block := { s.block with
    mem := { s.block.mem with outBuf := (Config.template c).bytes }, res := .ok } }) ∧
  (∀ c : Command, (Config.template c).bytes.length ≤ Config.bufCap) ∧
  decode 0x3000 = .ok (.build .startFan) ∧ decode 0x3001 = .ok (.build .stopFan) ∧
  decode 0x3002 = .ok (.build .readMeasurements) ∧ decode 0x3003 = .ok (.build .readSerialNumber)

/-- R114: `OUT` is `destuff` of the whole of `IN`, which never needs more room than `IN`. -/
def Obligations.DestuffWritesOut : Prop :=
  decode 0x4000 = .ok .destuff ∧
  ∀ s : State,
    exec .destuff s = .next { s with block := { s.block with
      mem := { s.block.mem with outBuf := destuff s.block.mem.inBuf }, res := .ok } } ∧
    (destuff s.block.mem.inBuf).length ≤ s.block.mem.inBuf.length

/-- R121: `OUT` is `stuff` of the whole of `IN` when that fits, otherwise only `RES` is written; the length of the stuffed
form is `IN_LEN` and one more for every byte of the table. -/
def Obligations.StuffWritesOutOrOverflows : Prop :=
  decode 0x5000 = .ok .stuff ∧
  ∀ s : State,
    (Config.bufCap < (stuff s.block.mem.inBuf).length →
      exec .stuff s = .next { s with block := { s.block with res := .overflow } }) ∧
    ((stuff s.block.mem.inBuf).length ≤ Config.bufCap →
      exec .stuff s = .next { s with block := { s.block with
        mem := { s.block.mem with outBuf := stuff s.block.mem.inBuf }, res := .ok } }) ∧
    (stuff s.block.mem.inBuf).length = s.block.mem.inBuf.length +
      s.block.mem.inBuf.countP (fun b => b = 0x7E || b = 0x7D || b = 0x11 || b = 0x13) ∧
    (stuff s.block.mem.inBuf).length ≤ 2 * s.block.mem.inBuf.length

/-- R131 with R130: a selected buffer of 47 bytes gives its ten words, any other length ten zeros and `MALFORMED`. -/
def Obligations.ParseMeasLoadsTenWordsOrZeros : Prop :=
  decode 0x6000 = .ok (.parseMeas .out) ∧ decode 0x6100 = .ok (.parseMeas .inp) ∧
  ∀ (src : Source) (s : State) (f : List Byte),
    f = (match src with | .out => s.block.mem.outBuf | .inp => s.block.mem.inBuf) →
    (f.length = 47 → ∃ v : Vector Word32 10,
      exec (.parseMeas src) s = .next { s with block := { s.block with m := v, mv := true, res := .ok } } ∧
      ∀ k : Fin 10, v[k] = be32 (f.getD (5 + 4 * k) 0) (f.getD (5 + 4 * k + 1) 0) (f.getD (5 + 4 * k + 2) 0)
        (f.getD (5 + 4 * k + 3) 0)) ∧
    (f.length ≠ 47 → ∃ z : Vector Word32 10,
      exec (.parseMeas src) s = .next { s with block := { s.block with m := z, mv := false, res := .malformed } } ∧
      ∀ k : Fin 10, z[k] = 0x00000000)

/-- R141 with R140, R142 and R143: the text of the selected buffer is copied exactly when all its bytes are below 0x80, and
otherwise `SN` is emptied; a frame of 8 bytes or fewer has the empty text. -/
def Obligations.ParseSnCopiesTextOrEmpties : Prop :=
  decode 0x7000 = .ok (.parseSn .out) ∧ decode 0x7100 = .ok (.parseSn .inp) ∧
  ∀ (src : Source) (s : State) (f t : List Byte),
    f = (match src with | .out => s.block.mem.outBuf | .inp => s.block.mem.inBuf) →
    t = (if f.length ≤ 8 then [] else (f.drop 5).take (f.length - 8)) →
    ((∀ b ∈ t, b.toNat < 0x80) →
      exec (.parseSn src) s = .next { s with block := { s.block with
        mem := { s.block.mem with snBuf := t }, sv := true, res := .ok } }) ∧
    ((∃ b ∈ t, 0x80 ≤ b.toNat) →
      exec (.parseSn src) s = .next { s with block := { s.block with
        mem := { s.block.mem with snBuf := [] }, sv := false, res := .malformed } })

/-- The frame of PUSH (R103): the one byte stored is at index `IN_LEN` of `IN`, every other byte of every buffer reads as
before, and no byte at all changes when the buffer is full; `M`, `MV`, `SV` are unchanged. -/
def Obligations.PushStoresOneByteAtInLen : Prop :=
  ∀ (b : Byte) (s t : State), exec (.push b) s = .next t →
    (∀ (sp : Space) (i : Nat), ¬ (sp = .inp ∧ i = s.block.mem.len .inp) →
      t.block.mem.byte sp i = s.block.mem.byte sp i) ∧
    (s.block.mem.len .inp ≠ Config.bufCap → t.block.mem.byte .inp (s.block.mem.len .inp) = some b) ∧
    (s.block.mem.len .inp = Config.bufCap → ∀ sp i, t.block.mem.byte sp i = s.block.mem.byte sp i) ∧
    t.block.m = s.block.m ∧ t.block.mv = s.block.mv ∧ t.block.sv = s.block.sv

/-- The frame of every operation (R20, column "Written by"): a component the operation may not write is unchanged, every
byte of a buffer it may not write reads as before, and an operation that ends with `OVERFLOW` changes no byte. The
accesses still to come, the replies and the count of draws are unchanged. -/
def Obligations.OperationsKeepWhatTheyDoNotWrite : Prop :=
  ∀ (i : Instr) (s t : State), exec i s = .next t →
    (writesIn i = false → ∀ j, t.block.mem.byte .inp j = s.block.mem.byte .inp j) ∧
    (writesOut i = false → ∀ j, t.block.mem.byte .out j = s.block.mem.byte .out j) ∧
    (writesSn i = false → (∀ j, t.block.mem.byte .sn j = s.block.mem.byte .sn j) ∧ t.block.sv = s.block.sv) ∧
    (writesMeas i = false → t.block.m = s.block.m ∧ t.block.mv = s.block.mv) ∧
    (t.block.res = .overflow → ∀ sp j, t.block.mem.byte sp j = s.block.mem.byte sp j) ∧
    t.pending = s.pending ∧ t.replies = s.replies ∧ t.draws = s.draws

/-! ### Rules about the whole machine -/

/-- R20, column "Written by", for a whole step: what changes a component is one of the operations named there, issued by
its own command word, or a reset. -/
def Obligations.OnlyItsWritersChangeAComponent : Prop :=
  ∀ s t : State, step s = .next t →
    ((t.block.m ≠ s.block.m ∨ t.block.mv ≠ s.block.mv) →
      ∃ rest, s.pending = .reset :: rest ∨ ∃ i, writesMeas i = true ∧ s.pending = .write 0 (encode i) :: rest) ∧
    (t.block.mem.inBuf ≠ s.block.mem.inBuf →
      ∃ rest, s.pending = .reset :: rest ∨ ∃ i, writesIn i = true ∧ s.pending = .write 0 (encode i) :: rest) ∧
    (t.block.mem.outBuf ≠ s.block.mem.outBuf →
      ∃ rest, s.pending = .reset :: rest ∨ ∃ i, writesOut i = true ∧ s.pending = .write 0 (encode i) :: rest) ∧
    ((t.block.mem.snBuf ≠ s.block.mem.snBuf ∨ t.block.sv ≠ s.block.sv) →
      ∃ rest, s.pending = .reset :: rest ∨ ∃ i, writesSn i = true ∧ s.pending = .write 0 (encode i) :: rest) ∧
    (t.block.res ≠ s.block.res →
      ∃ rest, s.pending = .reset :: rest ∨ ∃ w, s.pending = .write 0 w :: rest)

/-- R25: `MV` and `SV` tell whether the last parse of their kind ended with `OK`; nothing else changes them. -/
def Obligations.ValidFlagsFollowTheLastParse : Prop :=
  (∀ (src : Source) (s t : State), exec (.parseMeas src) s = .next t →
    (t.block.mv = true ↔ t.block.res = .ok) ∧ (t.block.mv = false → ∀ k : Fin 10, t.block.m[k] = 0)) ∧
  (∀ (src : Source) (s t : State), exec (.parseSn src) s = .next t → (t.block.sv = true ↔ t.block.res = .ok)) ∧
  (∀ (i : Instr) (s t : State), (∀ src, i ≠ .parseMeas src) → exec i s = .next t → t.block.mv = s.block.mv) ∧
  (∀ (i : Instr) (s t : State), (∀ src, i ≠ .parseSn src) → exec i s = .next t → t.block.sv = s.block.sv) ∧
  (∀ (w : CommandWord) (e : IllegalWord) (s t : State), decode w = .error e → issue w s = .next t →
    t.block.mv = s.block.mv ∧ t.block.sv = s.block.sv) ∧
  State.reset.block.mv = false ∧ State.reset.block.sv = false

/-- R152: the table of which operation ends with which code, and when. -/
def Obligations.OperationsEndWithTheCodesOfTheTable : Prop :=
  ∀ s : State,
    (∃ t, exec .nop s = .next t ∧ t.block.res = .ok) ∧
    (∃ t, exec .clear s = .next t ∧ t.block.res = .ok) ∧
    (∀ b, ∃ t, exec (.push b) s = .next t ∧
      t.block.res = if s.block.mem.len .inp = Config.bufCap then .overflow else .ok) ∧
    (∀ c, ∃ t, exec (.build c) s = .next t ∧ t.block.res = .ok) ∧
    (∃ t, exec .destuff s = .next t ∧ t.block.res = .ok) ∧
    (∃ t, exec .stuff s = .next t ∧
      t.block.res = if (stuff s.block.mem.inBuf).length > Config.bufCap then .overflow else .ok) ∧
    (∀ src, ∃ t, exec (.parseMeas src) s = .next t ∧
      t.block.res = if s.block.mem.len src.space = 47 then .ok else .malformed) ∧
    (∀ src, ∃ t, exec (.parseSn src) s = .next t ∧
      (t.block.res = .malformed ↔ ∃ (i : Nat) (b : Byte), 5 ≤ i ∧ i + 4 ≤ s.block.mem.len src.space ∧
        s.block.mem.byte src.space i = some b ∧ 0x80 ≤ b.toNat) ∧
      (t.block.res = .ok ∨ t.block.res = .malformed)) ∧
    (∀ w e, decode w = .error e → ∃ t, issue w s = .next t ∧ t.block.res = .illegalOp)

/-- R161: every command word written leads to a next state; `OVERFLOW` and `ILLEGAL_OP` change only `RES`; no step is a
fault, and the only refusal is that of two hosts at once (R60). -/
def Obligations.EveryCommandWordLeadsToANextState : Prop :=
  (∀ (s : State) (rest : List HostEvent) (w : CommandWord), s.pending = .write 0 w :: rest →
    ∃ t, step s = .next t ∧ t.pending = rest ∧
      (t.block.res = .overflow ∨ t.block.res = .illegalOp → t.block = { s.block with res := t.block.res })) ∧
  (∀ (s : State) (f : Fault), step s ≠ .fault f) ∧
  (∀ (s : State) (r : Refusal), step s = .refused r ↔ r = .twoHosts ∧ ∃ rest, s.pending = .twoHosts :: rest)

/-- R23: the four values of `RES`, and that the code left by an earlier operation influences nothing: every operation and
every illegal word overwrites it. -/
def Obligations.ResultCodeIsNotSticky : Prop :=
  (ResultCode.value .ok = 0 ∧ ResultCode.value .malformed = 1 ∧ ResultCode.value .overflow = 2 ∧
    ResultCode.value .illegalOp = 3) ∧
  (∀ (w : CommandWord) (s : State) (c : ResultCode),
    issue w { s with block := { s.block with res := c } } = issue w s)

/-- R60, last sentence: two hosts driving one instance at once are given no meaning. -/
def Obligations.TwoHostsAreRefused : Prop :=
  ∀ (s : State) (rest : List HostEvent), s.pending = .twoHosts :: rest → step s = .refused .twoHosts

/-- R60 (a) and (b): accesses take effect in the order the host makes them. A queue `a ++ b` is served as `a` and then `b`
from the state `a` leaves. -/
def Obligations.AccessesTakeEffectInOrder : Prop :=
  ∀ (a b : List HostEvent) (s t : State), run a.length { s with pending := a } = .next t →
    t.pending = [] ∧ run (a.length + b.length) { s with pending := a ++ b } = run b.length { t with pending := b }

/-- R32: what a read of each register number delivers, that a read changes nothing of the block, that a write to any
number but 0 is ignored, the reset column and the widths. The premise on the lengths is the invariant of R34. That a read
delivers 32 bits, with zeros above a register of 16 bits, is the model's choice (DESIGN CHOICE, notes/assumptions/9.md). -/
def Obligations.RegisterNumbersReadAndWrite : Prop :=
  (∀ (s : State) (rest : List HostEvent) (n : Nat), s.pending = .readReg n :: rest → s.block.Inv →
    ∃ v : Word32, step s = .next { s with pending := rest, replies := s.replies ++ [.reg v] } ∧
      (n ≤ 15 → v.toNat < 2 ^ 16) ∧
      (n = 0 → v = 0) ∧
      (n = 1 → v.toNat = s.block.res.value.toNat) ∧
      (n = 2 → v.toNat = (if s.block.mv then 1 else 0) + (if s.block.sv then 2 else 0)) ∧
      (n = 3 → v.toNat = s.block.mem.inBuf.length) ∧
      (n = 4 → v.toNat = s.block.mem.outBuf.length) ∧
      (n = 5 → v.toNat = s.block.mem.snBuf.length) ∧
      (6 ≤ n → n ≤ 15 → v = 0) ∧
      (∀ k : Fin 10, n = 16 + k → v = s.block.m[k]) ∧
      (26 ≤ n → v = 0)) ∧
  (∀ (s : State) (rest : List HostEvent) (n : Nat) (v : BitVec 16), s.pending = .write n v :: rest → n ≠ 0 →
    step s = .next { s with pending := rest }) ∧
  (∀ n : Nat, State.reset.block.readReg n = 0) ∧
  (∀ n : Nat, n ≤ 15 → regWidth n = some 16) ∧ (∀ k : Fin 10, regWidth (16 + k) = some 32)

/-- R51 and R52: a host read below the length delivers the buffer's byte; at or above it, the next unspecified byte (a free
value: the statement holds whatever it is). Neither changes the block. -/
def Obligations.HostByteReadsDeliverAndChangeNothing : Prop :=
  ∀ (s : State) (rest : List HostEvent) (sp : Space) (i : Nat), s.pending = .readByte sp i :: rest →
    (∀ h : i < (s.block.mem.buf sp).length,
      step s = .next { s with pending := rest, replies := s.replies ++ [.byte (s.block.mem.buf sp)[i]] }) ∧
    ((s.block.mem.buf sp).length ≤ i →
      ∃ b : Byte, step s = .next { s with pending := rest, replies := s.replies ++ [.byte b], draws := s.draws + 1 })

/-- R33: the state after reset, component by component; no buffer byte is observable, and the templates are untouched. -/
def Obligations.ResetStateIsAllZero : Prop :=
  (∀ k : Fin 10, State.reset.block.m[k] = 0x00000000) ∧
  State.reset.block.mem.len .inp = 0 ∧ State.reset.block.mem.len .out = 0 ∧ State.reset.block.mem.len .sn = 0 ∧
  (∀ sp i, State.reset.block.mem.byte sp i = none) ∧
  State.reset.block.res = .ok ∧ State.reset.block.mv = false ∧ State.reset.block.sv = false ∧
  (∀ c, ∃ t, exec (.build c) State.reset = .next t ∧ t.block.mem.outBuf = (Config.template c).bytes)

/-- R170 and R171: a reset between two operations, in any state, leaves the block in its reset state. -/
def Obligations.ResetEventRestoresTheResetBlock : Prop :=
  ∀ (s : State) (rest : List HostEvent), s.pending = .reset :: rest →
    step s = .next { s with pending := rest, block := State.reset.block }

/-- R172: the first parse after reset reads an empty buffer. -/
def Obligations.FirstParsesAfterReset : Prop :=
  ∀ src : Source,
    (∃ t, exec (.parseMeas src) State.reset = .next t ∧ t.block.res = .malformed ∧ t.block.mv = false) ∧
    (∃ t, exec (.parseSn src) State.reset = .next t ∧ t.block.res = .ok ∧ t.block.sv = true ∧
      t.block.mem.snBuf = [])

/-- R34 at reset. -/
def Obligations.InvariantHoldsAtReset : Prop :=
  State.reset.block.Inv

/-- R34: every step, from every state that meets the invariant, whatever the host does, keeps it. -/
def Obligations.StepKeepsInvariant : Prop :=
  ∀ s t : State, s.block.Inv → step s = .next t → t.block.Inv

/-- R34 of every reachable state, clause by clause. -/
def Obligations.ReachableStatesMeetInvariant : Prop :=
  ∀ s : State, Reachable s →
    s.block.mem.inBuf.length ≤ Config.bufCap ∧
    s.block.mem.outBuf.length ≤ Config.bufCap ∧
    s.block.mem.snBuf.length ≤ Config.snCap ∧
    (∀ b ∈ s.block.mem.snBuf, b.toNat < 0x80) ∧
    s.block.res.value.toNat ∈ [0, 1, 2, 3] ∧
    (s.block.mv = false → ∀ k : Fin 10, s.block.m[k] = 0x00000000) ∧
    (s.block.sv = false → s.block.mem.snBuf.length = 0)

/-- R8: the parameters lie in their constraints, whatever their values. That they are opaque constants known by these
constraints alone is the model's choice (DESIGN CHOICE, notes/assumptions/2.md), and the constraints on `TEMPLATE` are the
spec's own inference: "The constraints on `TEMPLATE` are `[derived: from rule R70 (a template is a frame) and rule R71]`". -/
def Obligations.ParametersMeetTheirConstraints : Prop :=
  94 ≤ Config.bufCap ∧ Config.bufCap ≤ 65535 ∧ Config.snCap = Config.bufCap - 8 ∧
  ∀ c : Command,
    2 ≤ (Config.template c).bytes.length ∧ (Config.template c).bytes.length ≤ Config.bufCap ∧
    ∀ i : Nat, (Config.template c).bytes[i]? = some 0x7E ↔ i = 0 ∨ i + 1 = (Config.template c).bytes.length

/-! ### The frame codec (30_encoding.md Part A, 41_framecodec.md) -/

/-- R72: the four entries in both directions, every other byte as itself, and the pattern in the second bytes. -/
def Obligations.EscapeTableHasFourEntries : Prop :=
  stuffByte 0x7E = [0x7D, 0x5E] ∧ stuffByte 0x7D = [0x7D, 0x5D] ∧ stuffByte 0x11 = [0x7D, 0x31] ∧
  stuffByte 0x13 = [0x7D, 0x33] ∧
  (∀ b : Byte, b ∉ [(0x7E : Byte), 0x7D, 0x11, 0x13] → stuffByte b = [b]) ∧
  (∀ b y : Byte, tab y = some b ↔ stuffByte b = [0x7D, y]) ∧
  (∀ b y : Byte, tab y = some b → y = b ^^^ 0x20)

/-- R113: one pass of `destuff`, position by position; with R77's rule of what is an escape pair and what is not. -/
def Obligations.DestuffIsOneLeftToRightPass : Prop :=
  destuff [] = [] ∧ destuff [0x7D] = [0x7D] ∧
  (∀ (x : Byte) (rest : List Byte), x ≠ 0x7D → destuff (x :: rest) = x :: destuff rest) ∧
  (∀ (y v : Byte) (rest : List Byte), tab y = some v → destuff (0x7D :: y :: rest) = v :: destuff rest) ∧
  (∀ (y : Byte) (rest : List Byte), tab y = none → destuff (0x7D :: y :: rest) = 0x7D :: destuff (y :: rest)) ∧
  tab 0x5E = some 0x7E ∧ tab 0x5D = some 0x7D ∧ tab 0x31 = some 0x11 ∧ tab 0x33 = some 0x13 ∧
  (∀ y : Byte, y ∉ [(0x5E : Byte), 0x5D, 0x31, 0x33] → tab y = none)

/-- R115 law 1. -/
def Obligations.DestuffNeverLengthens : Prop :=
  ∀ x : List Byte, (destuff x).length ≤ x.length ∧ ((destuff x).length = x.length ↔ ¬ HasEscapePair x)

/-- R115 law 2, and the source's conditional idempotence. -/
def Obligations.DestuffKeepsCleanInput : Prop :=
  ∀ x : List Byte, ¬ HasEscapePair x → destuff x = x ∧ destuff (destuff x) = destuff x

/-- R115 law 3: a frame can be destuffed in pieces unless an escape pair straddles the cut. -/
def Obligations.DestuffOfAConcatenation : Prop :=
  ∀ a b : List Byte,
    ¬ (a.getLast? = some 0x7D ∧ ∃ y v, b.head? = some y ∧ tab y = some v) →
    destuff (a ++ b) = destuff a ++ destuff b

/-- R115 law 4: the input falls into pieces, one per output byte; a piece is the output byte itself, or a 0x7D and a byte
that `tab` takes to the output byte. -/
def Obligations.DestuffOutputComesFromItsInput : Prop :=
  ∀ x : List Byte, ∃ pieces : List (List Byte × Byte),
    x = pieces.flatMap Prod.fst ∧ destuff x = pieces.map Prod.snd ∧
    ∀ p ∈ pieces, p.1 = [p.2] ∨ ∃ y, p.1 = [0x7D, y] ∧ tab y = some p.2

/-- R116: the table of corner cases. -/
def Obligations.DestuffCornerCases : Prop :=
  destuff [] = [] ∧
  destuff [0x7D] = [0x7D] ∧
  destuff [0x01, 0x7D] = [0x01, 0x7D] ∧
  destuff [0x7D, 0x00] = [0x7D, 0x00] ∧
  destuff [0x7D, 0x7E] = [0x7D, 0x7E] ∧
  destuff [0x7D, 0x5E] = [0x7E] ∧
  destuff [0x7D, 0x5D] = [0x7D] ∧
  destuff [0x7D, 0x31] = [0x11] ∧
  destuff [0x7D, 0x33] = [0x13] ∧
  destuff [0x5E, 0x7D] = [0x5E, 0x7D] ∧
  destuff [0x7D, 0x7D, 0x5E] = [0x7D, 0x7E] ∧
  destuff [0x7D, 0x5D, 0x5E] = [0x7D, 0x5E] ∧
  destuff [0x7D, 0x5D, 0x31] = [0x7D, 0x31] ∧
  destuff [0x7D, 0x5D, 0x5D] = [0x7D, 0x5D] ∧
  destuff [0x7E, 0x7D, 0x5E, 0x7E] = [0x7E, 0x7E, 0x7E] ∧
  destuff [0x7D, 0x5E, 0x7D, 0x5D, 0x7D, 0x31, 0x7D, 0x33] = [0x7E, 0x7D, 0x11, 0x13]

/-- R117: `destuff` is not idempotent in general. -/
def Obligations.DestuffIsNotIdempotent : Prop :=
  destuff [0x7D, 0x5D, 0x5E] = [0x7D, 0x5E] ∧ destuff (destuff [0x7D, 0x5D, 0x5E]) = [0x7E] ∧
  ¬ ∀ x, destuff (destuff x) = destuff x

/-- R118: the table of the byte-serial machine, and that what it emits is `destuff` of the input, for every input. -/
def Obligations.ByteSerialDestufferRefinesDestuff : Prop :=
  (∀ b : Byte, b ≠ 0x7D → serialStep false b = ([b], false)) ∧
  serialStep false 0x7D = ([], true) ∧
  (∀ b v : Byte, tab b = some v → serialStep true b = ([v], false)) ∧
  serialStep true 0x7D = ([0x7D], true) ∧
  (∀ b : Byte, tab b = none → b ≠ 0x7D → serialStep true b = ([0x7D, b], false)) ∧
  ∀ x : List Byte, serialDestuff false x = destuff x

/-- R119: four successive passes differ from `destuff` exactly when an escaped 0x7D is followed by 0x31 or 0x33. -/
def Obligations.FourPassesDifferExactlyThere : Prop :=
  destuffFourPass [0x7D, 0x5D, 0x31] = [0x11] ∧ destuff [0x7D, 0x5D, 0x31] = [0x7D, 0x31] ∧
  destuffFourPass [0x7D, 0x5D, 0x33] = [0x13] ∧ destuff [0x7D, 0x5D, 0x33] = [0x7D, 0x33] ∧
  ∀ x : List Byte, destuffFourPass x ≠ destuff x ↔
    ([0x7D, 0x5D, 0x31] <:+: x ∨ [0x7D, 0x5D, 0x33] <:+: x)

/-- R120: `stuff` takes its input byte by byte. -/
def Obligations.StuffEscapesByteByByte : Prop :=
  stuff [] = [] ∧
  ∀ (b : Byte) (x : List Byte), stuff (b :: x) =
    (if b = 0x7E then [0x7D, 0x5E] else if b = 0x7D then [0x7D, 0x5D] else if b = 0x11 then [0x7D, 0x31]
      else if b = 0x13 then [0x7D, 0x33] else [b]) ++ stuff x

/-- R122 law 1. -/
def Obligations.DestuffInvertsStuff : Prop :=
  ∀ x : List Byte, destuff (stuff x) = x

/-- R122 law 2 and R71: no 0x7E, 0x11 or 0x13 in a stuffed sequence, 0x7D only as the first byte of a pair, and 0x7E in a
wire frame at its two ends only. -/
def Obligations.StuffedBytesAndDelimiters : Prop :=
  (∀ (x : List Byte) (b : Byte), b ∈ stuff x → b ≠ 0x7E ∧ b ≠ 0x11 ∧ b ≠ 0x13) ∧
  (∀ (x : List Byte) (i : Nat), (stuff x)[i]? = some 0x7D → ∃ y v, (stuff x)[i + 1]? = some y ∧ tab y = some v) ∧
  (∀ (c : List Byte) (i : Nat), (wireFrame c)[i]? = some 0x7E ↔ i = 0 ∨ i + 1 = (wireFrame c).length)

/-- R122 law 3: a whole received frame, delimiters included, may be destuffed. -/
def Obligations.DestuffOfAWireFrame : Prop :=
  ∀ c : List Byte, destuff (wireFrame c) = [0x7E] ++ c ++ [0x7E]

/-- R122 law 4: `stuff` inverts `destuff` exactly on the image of `stuff`, and not on `7D 00`. -/
def Obligations.StuffInvertsDestuffOnItsImageOnly : Prop :=
  stuff (destuff [0x7D, 0x00]) = [0x7D, 0x5D, 0x00] ∧
  ∀ y : List Byte, stuff (destuff y) = y ↔ ∃ x, y = stuff x

/-! ### The response parsers (42_responseparser.md) -/

/-- R136: the ten words come back bit for bit, as a function and on the block after LOAD and PARSE_MEAS IN. -/
def Obligations.MeasurementRoundTrip : Prop :=
  ∀ (v : Vector Word32 10) (hdr trl : List Byte), hdr.length = 5 → trl.length = 2 →
    parseMeasurements (measFrame hdr v trl) = some v ∧
    ∀ s : State, ∃ t : State,
      run 49 (s.withOps (loadOps (measFrame hdr v trl) ++ [.parseMeas .inp])) = .next t ∧
      t.block.m = v ∧ t.block.mv = true ∧ t.block.res = .ok ∧ t.pending = []

/-- R137 with R130 and R140: header and trailer bytes do not influence either parser. -/
def Obligations.HeaderAndTrailerDoNotMatter : Prop :=
  (∀ f g : List Byte, f.length = 47 → g.length = 47 → (∀ i, 5 ≤ i → i < 45 → f[i]? = g[i]?) →
    parseMeasurements f = parseMeasurements g ∧ (parseMeasurements f).isSome = true) ∧
  (∀ f g : List Byte, f.length = g.length → (∀ i, 5 ≤ i → i + 3 < f.length → f[i]? = g[i]?) →
    parseSerialNumber f = parseSerialNumber g)

/-- R53 and `be32` of R13: the byte order of a word, as a number and both ways. -/
def Obligations.WordsAreBigEndian : Prop :=
  (∀ b0 b1 b2 b3 : Byte, (be32 b0 b1 b2 b3).toNat =
    b0.toNat * 2 ^ 24 + b1.toNat * 2 ^ 16 + b2.toNat * 2 ^ 8 + b3.toNat) ∧
  (∀ b0 b1 b2 b3 : Byte, beBytes (be32 b0 b1 b2 b3) = [b0, b1, b2, b3]) ∧
  (∀ (w : Word32) (b0 b1 b2 b3 : Byte), beBytes w = [b0, b1, b2, b3] → be32 b0 b1 b2 b3 = w)

/-- R143: a frame of 8 bytes or fewer gives the empty string with `OK`, whatever its bytes. -/
def Obligations.ShortSerialFramesAreEmptyAndOk : Prop :=
  ∀ (src : Source) (s : State), s.block.mem.len src.space ≤ 8 →
    exec (.parseSn src) s = .next { s with block := { s.block with
      mem := { s.block.mem with snBuf := [] }, sv := true, res := .ok } }

/-! ### Sequences of accesses -/

/-- R58: issuing an operation other than PUSH a second time changes nothing more, while a PUSH that finds room twice appends
twice. -/
def Obligations.RepeatingAnOperationChangesNothing : Prop :=
  (∀ (i : Instr) (s t : State), (∀ b, i ≠ .push b) → exec i s = .next t → exec i t = .next t) ∧
  (∀ (b : Byte) (s t u : State), s.block.mem.len .inp + 1 < Config.bufCap → exec (.push b) s = .next t →
    exec (.push b) t = .next u → u.block.mem.inBuf = s.block.mem.inBuf ++ [b, b])

/-- R86: the expansions of the pseudo-operations, and LOAD at each of its operations: after the first k bytes `IN` holds
them as far as they fit, and each PUSH from the first that overflows on ends with `OVERFLOW`. -/
def Obligations.PseudoOperationsExpandAndLoad : Prop :=
  (∀ bs, (AsmLine.load bs).expand = .clear :: bs.map .push) ∧
  AsmLine.decodeMeas.expand = [.destuff, .parseMeas .out] ∧
  AsmLine.decodeSn.expand = [.destuff, .parseSn .out] ∧
  ∀ (s : State) (bs : List Byte) (k : Nat), k ≤ bs.length →
    run (k + 1) (s.withOps (AsmLine.load bs).expand) = .next { s with
      pending := commandWrites ((bs.drop k).map fun b => encode (.push b)),
      block := { s.block with
        mem := { s.block.mem with inBuf := (bs.take k).take Config.bufCap },
        res := if k ≤ Config.bufCap then .ok else .overflow } }

/-- The receive path of a measurement, from R70, R86, R122 law 3 and R136: any ten words, sent as a wire frame with any
header content and checksum byte, whichever bytes the link layer had to escape, end up in `M`. -/
def Obligations.ReceivedMeasurementFrameIsDecoded : Prop :=
  ∀ (s : State) (v : Vector Word32 10) (hdr : List Byte) (chk : Byte) (raw : List Byte), hdr.length = 4 →
    raw = wireFrame (measFrame hdr v [chk]) →
    raw.length ≤ 92 ∧
    run (raw.length + 3) (s.withOps ((AsmLine.load raw).expand ++ AsmLine.decodeMeas.expand)) = .next { s with
      pending := [],
      block := { s.block with
        m := v, mv := true, res := .ok,
        mem := { s.block.mem with inBuf := raw, outBuf := measFrame (0x7E :: hdr) v [chk, 0x7E] } } }

/-- The receive path of a serial number, from R70, R86, R122 law 3 and R140: ASCII text sent as a wire frame that fits in
`IN` ends up in `SN`. -/
def Obligations.ReceivedSerialNumberIsDecoded : Prop :=
  ∀ (s : State) (hdr text : List Byte) (nul chk : Byte) (raw : List Byte), hdr.length = 4 →
    (∀ b ∈ text, b.toNat < 0x80) → raw = wireFrame (hdr ++ text ++ [nul, chk]) → raw.length ≤ Config.bufCap →
    run (raw.length + 3) (s.withOps ((AsmLine.load raw).expand ++ AsmLine.decodeSn.expand)) = .next { s with
      pending := [],
      block := { s.block with
        sv := true, res := .ok,
        mem := { inBuf := raw, outBuf := [0x7E] ++ hdr ++ text ++ [nul, chk, 0x7E], snBuf := text } } }

/-- R85: lines of the assembler's syntax and their command words, one of each form and some that are no line. -/
def Obligations.AssemblerLinesGiveTheirWords : Prop :=
  assembleLine "NOP".toList = some [0x0000] ∧ assembleLine "CLEAR".toList = some [0x1000] ∧
  assembleLine "PUSH 0x7E ; first byte".toList = some [0x207E] ∧ assembleLine "PUSH 255".toList = some [0x20FF] ∧
  assembleLine "PUSH 256".toList = none ∧
  assembleLine "BUILD START_FAN".toList = some [0x3000] ∧ assembleLine "BUILD STOP_FAN".toList = some [0x3001] ∧
  assembleLine "BUILD READ_MEASUREMENTS".toList = some [0x3002] ∧
  assembleLine "BUILD READ_SERIAL_NUMBER".toList = some [0x3003] ∧
  assembleLine "BUILD 3".toList = some [0x3003] ∧ assembleLine "BUILD 4".toList = none ∧
  assembleLine "DESTUFF".toList = some [0x4000] ∧ assembleLine "STUFF".toList = some [0x5000] ∧
  assembleLine "PARSE_MEAS OUT".toList = some [0x6000] ∧ assembleLine "PARSE_MEAS IN".toList = some [0x6100] ∧
  assembleLine "PARSE_SN OUT".toList = some [0x7000] ∧ assembleLine "PARSE_SN IN".toList = some [0x7100] ∧
  assembleLine "LOAD 7E 7D".toList = some [0x1000, 0x207E, 0x207D] ∧
  assembleLine "DECODE_MEAS".toList = some [0x4000, 0x6000] ∧
  assembleLine "DECODE_SN".toList = some [0x4000, 0x7000] ∧
  assembleLine "nop".toList = none ∧ assembleLine "; only a comment".toList = some []
end

