-- ==== Sys2Proof/Laws/FrameCodec.lean ====
section
/-! SUPPORT. The small lemmas of the frame codec's definitions. -/

namespace Sys2Proof.Machine

@[simp] theorem destuff_nil : destuff [] = [] := rfl

@[simp] theorem stuff_nil : stuff [] = [] := rfl

@[simp] theorem stuff_cons (b : Byte) (bs : List Byte) : stuff (b :: bs) = stuffByte b ++ stuff bs := rfl

@[simp] theorem stuff_append (a b : List Byte) : stuff (a ++ b) = stuff a ++ stuff b := by simp [stuff]

/-- A byte is stuffed to itself or to a pair that `tab` turns back into it. -/
theorem stuffByte_cases (b : Byte) :
    (stuffByte b = [b] ∧ b ≠ esc) ∨ ∃ y, stuffByte b = [esc, y] ∧ tab y = some b ∧ y ≠ esc := by
  by_cases h : b = 0x7E ∨ b = 0x7D ∨ b = 0x11 ∨ b = 0x13
  · refine .inr ?_
    rcases h with rfl | rfl | rfl | rfl
    · exact ⟨0x5E, by decide⟩
    · exact ⟨0x5D, by decide⟩
    · exact ⟨0x31, by decide⟩
    · exact ⟨0x33, by decide⟩
  · simp only [not_or] at h
    obtain ⟨h1, h2, h3, h4⟩ := h
    refine .inl ⟨?_, h2⟩
    rw [stuffByte, if_neg h1, if_neg h2, if_neg h3, if_neg h4]

/-- Escape byte 0x7D is never the second byte of a pair. -/
@[simp] theorem tab_esc : tab esc = none := by decide

end Sys2Proof.Machine
end

