-- ==== Sys2Proof/Laws/State.lean ====
section
/-! SUPPORT. One lemma per field per update of the state, true by rfl, so that no proof unfolds a record update. -/

namespace Sys2Proof.Machine

section Raise
variable (c : ResultCode) (b : Block)
@[simp] theorem Block.raise_m : (b.raise c).m = b.m := rfl
@[simp] theorem Block.raise_mem : (b.raise c).mem = b.mem := rfl
@[simp] theorem Block.raise_res : (b.raise c).res = c := rfl
@[simp] theorem Block.raise_mv : (b.raise c).mv = b.mv := rfl
@[simp] theorem Block.raise_sv : (b.raise c).sv = b.sv := rfl
@[simp] theorem Block.done_m : b.done.m = b.m := rfl
@[simp] theorem Block.done_mem : b.done.mem = b.mem := rfl
@[simp] theorem Block.done_res : b.done.res = .ok := rfl
@[simp] theorem Block.done_mv : b.done.mv = b.mv := rfl
@[simp] theorem Block.done_sv : b.done.sv = b.sv := rfl
end Raise

section Buffers
variable (m : Memory) (bs : List Byte)
@[simp] theorem Memory.buf_inp : m.buf .inp = m.inBuf := rfl
@[simp] theorem Memory.buf_out : m.buf .out = m.outBuf := rfl
@[simp] theorem Memory.buf_sn : m.buf .sn = m.snBuf := rfl
@[simp] theorem Memory.setBuf_inp : m.setBuf .inp bs = { m with inBuf := bs } := rfl
@[simp] theorem Memory.setBuf_out : m.setBuf .out bs = { m with outBuf := bs } := rfl
@[simp] theorem Memory.setBuf_sn : m.setBuf .sn bs = { m with snBuf := bs } := rfl
@[simp] theorem Memory.len_inp : m.len .inp = m.inBuf.length := rfl
@[simp] theorem Memory.len_out : m.len .out = m.outBuf.length := rfl
@[simp] theorem Memory.len_sn : m.len .sn = m.snBuf.length := rfl
@[simp] theorem Memory.cap_inp : Memory.cap .inp = Config.bufCap := rfl
@[simp] theorem Memory.cap_out : Memory.cap .out = Config.bufCap := rfl
@[simp] theorem Memory.cap_sn : Memory.cap .sn = Config.snCap := rfl
end Buffers

@[simp] theorem State.complete_eq (s : State) (b : Block) : s.complete b = .next { s with block := b } := rfl

section Reset
@[simp] theorem State.reset_block : State.reset.block = Block.reset := rfl
@[simp] theorem State.reset_pending : State.reset.pending = [] := rfl
@[simp] theorem State.reset_replies : State.reset.replies = [] := rfl
@[simp] theorem Block.reset_mem : Block.reset.mem = ⟨[], [], []⟩ := rfl
@[simp] theorem Block.reset_m : Block.reset.m = Vector.replicate 10 0 := rfl
@[simp] theorem Block.reset_res : Block.reset.res = .ok := rfl
@[simp] theorem Block.reset_mv : Block.reset.mv = false := rfl
@[simp] theorem Block.reset_sv : Block.reset.sv = false := rfl
end Reset

end Sys2Proof.Machine
end

