-- ==== Sys2Proof/Laws/Memory.lean ====
section
/-! SUPPORT. The buffer operations: what each leaves in the buffer it names and in the others, and that each keeps the
canonical form (10_state.md R34). -/

namespace Sys2Proof.Machine

namespace Memory

variable (m : Memory) (sp sp' : Space) (bs : List Byte)

@[simp] theorem buf_setBuf_self : (m.setBuf sp bs).buf sp = bs := by cases sp <;> rfl

theorem buf_setBuf_other (h : sp' ≠ sp) : (m.setBuf sp bs).buf sp' = m.buf sp' := by
  cases sp <;> cases sp' <;> first | rfl | exact absurd rfl h

/-- `MemRead(S, 0, S_LEN)` is the whole buffer. -/
@[simp] theorem read_whole : m.read sp 0 (m.len sp) = m.buf sp := by simp [read, len]

/-- `S <- B` leaves exactly B. -/
@[simp] theorem assign_eq : m.assign sp bs = m.setBuf sp bs := by
  cases sp <;> simp [assign, write, setLen]

/-- `S_LEN <- 0` empties the buffer. -/
@[simp] theorem setLen_zero : m.setLen sp 0 = m.setBuf sp [] := by simp [setLen]

/-- A `MemWrite` at the length appends. -/
@[simp] theorem write_at_len : m.write sp (m.len sp) bs = m.setBuf sp (m.buf sp ++ bs) := by
  have : (m.buf sp).drop ((m.buf sp).length + bs.length) = [] := List.drop_eq_nil_of_le (by omega)
  simp [write, len, this]

@[simp] theorem read_inp : m.read .inp 0 m.inBuf.length = m.inBuf := m.read_whole .inp

@[simp] theorem read_out : m.read .out 0 m.outBuf.length = m.outBuf := m.read_whole .out

@[simp] theorem write_inp_at_end : m.write .inp m.inBuf.length bs = { m with inBuf := m.inBuf ++ bs } :=
  m.write_at_len .inp bs

theorem wf_iff : m.wf ↔ m.inBuf.length ≤ Config.bufCap ∧ m.outBuf.length ≤ Config.bufCap ∧
    m.snBuf.length ≤ Config.snCap := by
  simp [wf]

theorem len_le_cap (h : m.wf) : m.len sp ≤ cap sp := h sp (by cases sp <;> simp)

theorem setBuf_wf (h : m.wf) (hb : bs.length ≤ cap sp) : (m.setBuf sp bs).wf := by
  rw [wf_iff] at *
  cases sp <;> simp_all

theorem assign_wf (h : m.wf) (hb : bs.length ≤ cap sp) : (m.assign sp bs).wf := by
  simpa using setBuf_wf m sp bs h hb

theorem setLen_wf (h : m.wf) (n : Nat) : (m.setLen sp n).wf := by
  refine setBuf_wf m sp _ h ?_
  have := m.len_le_cap sp h
  simp only [len] at this
  simp only [List.length_take]
  omega

theorem write_wf (h : m.wf) (i : Nat) (hi : i ≤ m.len sp) (hb : i + bs.length ≤ cap sp) :
    (m.write sp i bs).wf := by
  refine setBuf_wf m sp _ h ?_
  have := m.len_le_cap sp h
  simp only [len] at hi this
  simp only [List.length_append, List.length_take, List.length_drop]
  omega

/-- The addresses of a buffer's cells rise strictly. -/
theorem cells_rising : (m.cells sp).Pairwise fun a b => a.1 < b.1 := by
  rw [cells, List.pairwise_map]
  have : ((m.buf sp).zipIdx.map Prod.snd).Pairwise (· < ·) := by
    rw [List.zipIdx_map_snd]
    exact List.pairwise_lt_range'
  exact List.pairwise_map.mp this

/-- A cell stands in a buffer's view exactly when a host read at its address finds its byte. -/
theorem mem_cells_iff (i : Nat) (v : Byte) : (i, v) ∈ m.cells sp ↔ m.byte sp i = some v := by
  simp [cells, byte, List.mem_zipIdx_iff_getElem?]

end Memory

/-- The parsers' operand is the whole of the selected buffer. -/
@[simp] theorem selectedFrame_out (m : Memory) : selectedFrame .out m = m.outBuf := m.read_whole .out

@[simp] theorem selectedFrame_inp (m : Memory) : selectedFrame .inp m = m.inBuf := m.read_whole .inp

theorem Block.reset_mem_wf : Block.reset.mem.wf := by simp [Memory.wf_iff]

/-- R8's range of `BUF_CAP`. -/
theorem bufCap_range : 94 ≤ Config.bufCap ∧ Config.bufCap ≤ 65535 := by
  have := Config.capExtra.isLt
  simp only [Config.bufCap]
  omega

theorem snCap_add : Config.snCap + 8 = Config.bufCap := by
  have := bufCap_range
  simp only [Config.snCap]
  omega

end Sys2Proof.Machine
end

