-- ==== Sys2Proof/Laws/PerInstr.lean ====
section
/-! SUPPORT. Statements made once per operation: every encoding has its reserved bits 0 and an operation code below 8
(30_encoding.md R80, R82), and every operation is well-formed (R81). -/

namespace Sys2Proof.Laws.EncodedFields

/-- The reserved field of `encode i` is 0, its operation code is defined, and `i` is well-formed. -/
def Statement (i : Instr) : Prop :=
  (encode i).rsv = 0 ∧ (encode i).opc.toNat < 8 ∧ i.wellFormed = true

theorem nop : Statement .nop := by unfold Statement; decide

theorem clear : Statement .clear := by unfold Statement; decide

theorem push (b : Byte) : Statement (.push b) := by
  refine ⟨?_, ?_, by simpa [Instr.wellFormed] using b.isLt⟩ <;> · revert b; decide

theorem build (c : Command) : Statement (.build c) := by unfold Statement; cases c <;> decide

theorem destuff : Statement .destuff := by unfold Statement; decide

theorem stuff : Statement .stuff := by unfold Statement; decide

theorem parseMeas (s : Source) : Statement (.parseMeas s) := by unfold Statement; cases s <;> decide

theorem parseSn (s : Source) : Statement (.parseSn s) := by unfold Statement; cases s <;> decide

end Sys2Proof.Laws.EncodedFields

/-- Every term of `Instr` is well-formed: the operand types enforce the ranges. -/
theorem Sys2Proof.Laws.Instr.wellFormed_all (i : Sys2Proof.Instr) : i.wellFormed = true := by
  cases i with
  | nop => rfl
  | clear => rfl
  | push b => exact (Sys2Proof.Laws.EncodedFields.push b).2.2
  | build c => exact (Sys2Proof.Laws.EncodedFields.build c).2.2
  | destuff => rfl
  | stuff => rfl
  | parseMeas s => exact (Sys2Proof.Laws.EncodedFields.parseMeas s).2.2
  | parseSn s => exact (Sys2Proof.Laws.EncodedFields.parseSn s).2.2
end

