-- ==== Sys2Proof/Laws/ResponseParser.lean ====
section
/-! SUPPORT. One spec lemma for each reference function of the response parsers, so that no proof meets a dependent index. -/

namespace Sys2Proof.Machine

/-- Word `k` by plain indices. -/
theorem measWord_eq (f : List Byte) (h : f.length = measFrameLen) (k : Fin 10) :
    measWord f h k = be32 (f.getD (5 + 4 * k) 0) (f.getD (5 + 4 * k + 1) 0) (f.getD (5 + 4 * k + 2) 0)
      (f.getD (5 + 4 * k + 3) 0) := by
  have hk := k.isLt
  rw [measFrameLen] at h
  simp only [measWord, hdrLen, List.getD_eq_getElem?_getD]
  rw [List.getElem?_eq_getElem (by omega), List.getElem?_eq_getElem (by omega), List.getElem?_eq_getElem (by omega),
    List.getElem?_eq_getElem (by omega)]
  rfl

/-- A frame of 47 bytes parses to the ten words at its indices. -/
theorem parseMeasurements_of_length (f : List Byte) (h : f.length = 47) :
    parseMeasurements f = some (Vector.ofFn fun k : Fin 10 => be32 (f.getD (5 + 4 * k) 0) (f.getD (5 + 4 * k + 1) 0)
      (f.getD (5 + 4 * k + 2) 0) (f.getD (5 + 4 * k + 3) 0)) := by
  have h' : f.length = measFrameLen := h
  rw [parseMeasurements, dif_pos h']
  exact congrArg (fun g => some (Vector.ofFn g)) (funext (measWord_eq f h'))

/-- A frame of any other length does not parse. -/
theorem parseMeasurements_of_ne (f : List Byte) (h : f.length ≠ 47) : parseMeasurements f = none := by
  have h' : ¬ f.length = measFrameLen := h
  rw [parseMeasurements, dif_neg h']

/-- The text of a serial-number frame with the lengths as numbers. -/
theorem snText_eq (f : List Byte) : snText f = if f.length ≤ 8 then [] else (f.drop 5).take (f.length - 8) := rfl

theorem parseSerialNumber_of_ascii (f : List Byte) (h : ∀ b ∈ snText f, b.toNat < 0x80) :
    parseSerialNumber f = some (snText f) := by
  have : (snText f).all isAscii = true := by simpa [isAscii] using h
  rw [parseSerialNumber, if_pos this]

theorem parseSerialNumber_of_not_ascii (f : List Byte) (h : ∃ b ∈ snText f, 0x80 ≤ b.toNat) :
    parseSerialNumber f = none := by
  have : ¬ (snText f).all isAscii = true := by simpa [isAscii] using h
  rw [parseSerialNumber, if_neg this]

end Sys2Proof.Machine
end

