-- ==== Sys2Proof/Laws/Step.lean ====
section
/-! SUPPORT. What a step can do: it serves the oldest pending access, or idles. -/

namespace Sys2Proof.Machine

theorem step_idle (s : State) (h : s.pending = []) : step s = .next s := by
  simp [step, h, idle]

theorem step_serves (s : State) (e : HostEvent) (rest : List HostEvent) (h : s.pending = e :: rest) :
    step s = serve e { s with pending := rest } := by
  simp [step, h]

/-- Every operation ends in a next state. The block it leaves depends on the block before alone, and the rest of the state
is as before. -/
theorem exec_block (i : Instr) (b : Block) :
    ∃ b', ∀ s : State, s.block = b → exec i s = .next { s with block := b' } := by
  cases i with
  | nop => exact ⟨_, fun s h => by simp only [exec, execNop]; rw [h]; rfl⟩
  | clear => exact ⟨_, fun s h => by simp only [exec, execClear]; rw [h]; rfl⟩
  | push c =>
    by_cases hc : b.mem.len .inp = Config.bufCap
    · exact ⟨_, fun s h => by rw [exec, execPush, h, if_pos hc]; rfl⟩
    · exact ⟨_, fun s h => by rw [exec, execPush, h, if_neg hc]; rfl⟩
  | build c => exact ⟨_, fun s h => by simp only [exec, execBuild]; rw [h]; rfl⟩
  | destuff => exact ⟨_, fun s h => by simp only [exec, execDestuff]; rw [h]; rfl⟩
  | stuff =>
    by_cases hc : Config.bufCap < (Machine.stuff (b.mem.read .inp 0 (b.mem.len .inp))).length
    · exact ⟨_, fun s h => by simp only [exec, execStuff]; rw [h, if_pos hc]; rfl⟩
    · exact ⟨_, fun s h => by simp only [exec, execStuff]; rw [h, if_neg hc]; rfl⟩
  | parseMeas src =>
    cases hp : parseMeasurements (selectedFrame src b.mem) with
    | some v => exact ⟨_, fun s h => by simp only [exec, execParseMeas]; rw [h, hp]; rfl⟩
    | none => exact ⟨_, fun s h => by simp only [exec, execParseMeas]; rw [h, hp]; rfl⟩
  | parseSn src =>
    cases hp : parseSerialNumber (selectedFrame src b.mem) with
    | some t => exact ⟨_, fun s h => by simp only [exec, execParseSn]; rw [h, hp]; rfl⟩
    | none => exact ⟨_, fun s h => by simp only [exec, execParseSn]; rw [h, hp]; rfl⟩

/-- No operation looks at the accesses still to come. -/
theorem exec_pending (i : Instr) (s t : State) (p : List HostEvent) (h : exec i s = .next t) :
    exec i { s with pending := p } = .next { t with pending := p } := by
  obtain ⟨b', hb⟩ := exec_block i s.block
  rw [hb s rfl] at h
  rw [hb { s with pending := p } rfl]
  injection h with h
  subst h
  rfl

/-- Every step that answers a next state idled or served one access. -/
theorem step_cases {s t : State} (h : step s = .next t) :
    (s.pending = [] ∧ t = s) ∨
      ∃ e rest, s.pending = e :: rest ∧ serve e { s with pending := rest } = .next t := by
  cases hp : s.pending with
  | nil =>
    rw [step_idle s hp] at h
    exact .inl ⟨rfl, by injection h with h; exact h.symm⟩
  | cons e rest => exact .inr ⟨e, rest, rfl, by rw [← step_serves s e rest hp]; exact h⟩

/-- Every served access that answers a next state is one of these. -/
theorem serve_cases {e : HostEvent} {s t : State} (h : serve e s = .next t) :
    (∃ v i, e = .write cwNumber v ∧ decode v = .ok i ∧ exec i s = .next t) ∨
    (∃ v r, e = .write cwNumber v ∧ decode v = .error r ∧ t = { s with block := s.block.raise .illegalOp }) ∨
    (∃ n v, e = .write n v ∧ n ≠ cwNumber ∧ t = s) ∨
    (∃ n, e = .readReg n ∧ hostReadReg n s = .next t) ∨
    (∃ sp i, e = .readByte sp i ∧ hostReadByte sp i s = .next t) ∨
    (e = .reset ∧ t = { s with block := Block.reset }) := by
  cases e with
  | write n v =>
    by_cases hn : n = cwNumber
    · subst hn
      simp only [serve, if_true, issue] at h
      cases hd : decode v with
      | ok i => rw [hd] at h; exact .inl ⟨v, i, rfl, hd, h⟩
      | error r =>
        rw [hd] at h
        simp only [illegalOp, State.complete_eq] at h
        injection h with h
        exact .inr (.inl ⟨v, r, rfl, hd, h.symm⟩)
    · simp only [serve, hn, if_false, ignoredWrite] at h
      injection h with h
      exact .inr (.inr (.inl ⟨n, v, rfl, hn, h.symm⟩))
  | readReg n => exact .inr (.inr (.inr (.inl ⟨n, rfl, h⟩)))
  | readByte sp i => exact .inr (.inr (.inr (.inr (.inl ⟨sp, i, rfl, h⟩))))
  | reset =>
    simp only [serve, resetBlock] at h
    injection h with h
    exact .inr (.inr (.inr (.inr (.inr ⟨rfl, h.symm⟩))))
  | twoHosts => simp [serve] at h

/-- A host read delivers one reply and leaves the block as it was. -/
theorem hostReadReg_block {n : Nat} {s t : State} (h : hostReadReg n s = .next t) :
    t.block = s.block ∧ t.pending = s.pending := by
  simp only [hostReadReg] at h
  injection h with h
  subst h
  exact ⟨rfl, rfl⟩

theorem hostReadByte_block {sp : Space} {i : Nat} {s t : State} (h : hostReadByte sp i s = .next t) :
    t.block = s.block ∧ t.pending = s.pending := by
  simp only [hostReadByte] at h
  split at h <;> · injection h with h; subst h; exact ⟨rfl, rfl⟩

end Sys2Proof.Machine
end

