-- ==== Sys2Proof/Machine/Binary32.lean ====
section
/-! DEFINITION. What number a measurement pattern means (42_responseparser.md R135). Only a reader of values needs it: no
operation of the block looks inside a pattern (R134). -/

namespace Sys2Proof.Machine

/-- `S = w[31]` (R135). -/
def Binary32.sign (w : Word32) : Bool := w.getLsbD 31

/-- The biased exponent `E = w[30:23]` (R135). -/
def Binary32.exponent (w : Word32) : Nat := (w.extractLsb' 23 8).toNat

/-- The fraction `T = w[22:0]` (R135). -/
def Binary32.fraction (w : Word32) : Nat := (w.extractLsb' 0 23).toNat

/-- The value of a pattern. `finite neg n e` is `(-1)^neg * n * 2^e`. -/
inductive Binary32Value where
  | finite (neg : Bool) (n : Nat) (e : Int)
  | infinity (neg : Bool)
  | nan
deriving DecidableEq, Repr

/-- R135: `2^(E-127) * (1 + T/2^23)` is `(2^23 + T) * 2^(E-150)`, and `2^(-126) * (T/2^23)` is `T * 2^(-149)` (DEDUCED, safe:
notes/assumptions/14.md). -/
def Binary32.value (w : Word32) : Binary32Value :=
  if exponent w = 255 then (if fraction w = 0 then .infinity (sign w) else .nan)
  else if exponent w = 0 then .finite (sign w) (fraction w) (-149)
  else .finite (sign w) (2 ^ 23 + fraction w) (Int.ofNat (exponent w) - 150)

end Sys2Proof.Machine
end

