-- ==== Sys2Proof/Tests/Slice0.lean ====
section
/-! SUPPORT. The model's own tests. Expected results come from the spec: V-E, V-H, V-B, V-D, V-S, V-M, V-N and P4 are
vectors of 95_test_vectors.md; words are written bit by bit from R80 and R82 (opc, rsv, s, imm8). The second half shows,
for every obligation with hypotheses, a state and operands that meet them. -/

namespace Sys2Proof.Tests

open Sys2Proof Sys2Proof.Machine

/-- A block after reset but for the bytes of `IN` and `OUT`. -/
def blockWith (inBytes outBytes : List Byte) : Block :=
  { Block.reset with mem := { inBuf := inBytes, outBuf := outBytes, snBuf := [] } }

/-- The state around it, with the accesses still to come. -/
def stateWith (inBytes outBytes : List Byte) (pending : List HostEvent := []) : State :=
  { State.reset with block := blockWith inBytes outBytes, pending := pending }

/-- The block of a next state. -/
def after : Result → Option Block
  | .next t => some t.block
  | .fault _ => none
  | .refused _ => none

/-! ### Well-formedness: a word that each check of R83 refuses, and the types' ranges -/

theorem test_wellFormed_refuses_opcode : CommandWord.wellFormed 0x8000 = false := by decide
theorem test_wellFormed_refuses_reserved : CommandWord.wellFormed 0x7300 = false := by decide
theorem test_wellFormed_refuses_source : CommandWord.wellFormed 0x2100 = false := by decide
theorem test_wellFormed_refuses_immediate : CommandWord.wellFormed 0x6101 = false := by decide
theorem test_wellFormed_refuses_build_immediate : CommandWord.wellFormed 0x3004 = false := by decide
theorem test_wellFormed_accepts : CommandWord.wellFormed 0x20FF = true ∧ CommandWord.wellFormed 0x7100 = true := by decide
theorem test_assembler_refuses_out_of_range :
    assembleLine "PUSH 256".toList = none ∧ assembleLine "BUILD 4".toList = none := by decide

/-! ### Decoding: every constructor, V-E1 to V-E21 -/

theorem test_decode_nop : decode 0b0000_000_0_00000000 = .ok .nop := by decide
theorem test_decode_clear : decode 0b0001_000_0_00000000 = .ok .clear := by decide
theorem test_decode_push : decode 0b0010_000_0_11010010 = .ok (.push 0b11010010) := by decide
theorem test_decode_build : decode 0b0011_000_0_00000010 = .ok (.build .readMeasurements) := by decide
theorem test_decode_destuff : decode 0b0100_000_0_00000000 = .ok .destuff := by decide
theorem test_decode_stuff : decode 0b0101_000_0_00000000 = .ok .stuff := by decide
theorem test_decode_parseMeas : decode 0b0110_000_1_00000000 = .ok (.parseMeas .inp) := by decide
theorem test_decode_parseSn : decode 0b0111_000_0_00000000 = .ok (.parseSn .out) := by decide
theorem test_decode_illegal :
    [0x0001, 0x1100, 0x2100, 0x2200, 0x3004, 0x4001, 0x6101, 0x6200, 0x7300, 0x8000, 0xFFFF].all
      (fun w => (decode w).toOption = none) = true := by decide
theorem test_encode : encode (.push 0x7E) = 0x207E ∧ encode (.build .readSerialNumber) = 0x3003 ∧
    encode (.parseMeas .inp) = 0x6100 ∧ encode (.parseSn .out) = 0x7000 := by decide

/-- Every row's word, with its free bits 0, is the row's operation and runs as the first one after reset. -/
theorem test_rows_run_first :
    [0x0000, 0x1000, 0x2000, 0x3000, 0x4000, 0x5000, 0x6000, 0x7000].all
      (fun w => (decodeTableWord 16 w).isSome && (after (step (State.reset.withFetchWord 16 w))).isSome) = true := by
  decide

/-! ### The operations -/

/-- V-H1. -/
theorem test_nop_clears_res :
    after (exec .nop { stateWith [] [] with block := { Block.reset with res := .malformed } }) = some Block.reset := by
  decide

/-- V-H4. -/
theorem test_clear : after (exec .clear (stateWith [0x7E, 0x7D] [0x01])) = some (blockWith [] [0x01]) := by decide

/-- V-H3. -/
theorem test_push : after (exec (.push 0x7D) (stateWith [0x7E] [])) = some (blockWith [0x7E, 0x7D] []) := by decide

/-- V-H7. -/
theorem test_push_full : after (exec (.push 0x00) (stateWith (List.replicate Config.bufCap 0xAB) [])) =
    some { blockWith (List.replicate Config.bufCap 0xAB) [] with res := .overflow } := by
  simp [exec, execPush, stateWith, blockWith, after, Block.raise]

/-- V-B1. -/
theorem test_build (c : Command) :
    (after (exec (.build c) (stateWith [] [0x01]))).map (·.mem.outBuf) = some (Config.template c).bytes := by
  simp [exec, execBuild, after, template]

/-- V-D12. -/
theorem test_destuff_no_rescan :
    after (exec .destuff (stateWith [0x7D, 0x5D, 0x31] [])) = some (blockWith [0x7D, 0x5D, 0x31] [0x7D, 0x31]) := by
  decide

/-- V-D24, with the byte-serial trace. -/
theorem test_destuff_held_escape : destuff [0x7D, 0x7D, 0x5E, 0x7D] = [0x7D, 0x7E, 0x7D] ∧
    serialDestuff false [0x7D, 0x7D, 0x5E, 0x7D] = [0x7D, 0x7E, 0x7D] := by decide

/-- V-S8. -/
theorem test_stuff : after (exec .stuff (stateWith [0x7E, 0x7D, 0x11, 0x13] [])) =
    some (blockWith [0x7E, 0x7D, 0x11, 0x13] [0x7D, 0x5E, 0x7D, 0x5D, 0x7D, 0x31, 0x7D, 0x33]) := by decide

/-- V-S13: `BUF_CAP - 1` bytes of 00, then 7E. -/
theorem test_stuff_overflow :
    (after (exec .stuff (stateWith (List.replicate (Config.bufCap - 1) 0x00 ++ [0x7E]) [0x55]))).map
      (fun b => (b.mem.outBuf, b.res)) = some ([0x55], .overflow) := by
  have h0 : stuffByte 0x00 = [0x00] := by decide
  have h7 : (stuffByte 0x7E).length = 2 := by decide
  have hs : ∀ n, (stuff (List.replicate n 0x00)).length = n := by
    intro n
    induction n with
    | zero => rfl
    | succ n ih => rw [List.replicate_succ, stuff_cons, h0, List.length_append, ih, List.length_singleton, Nat.add_comm]
  have hc := bufCap_range
  have hl : Config.bufCap < (stuff (List.replicate (Config.bufCap - 1) 0x00 ++ [0x7E])).length := by
    rw [stuff_append, List.length_append, hs, stuff_cons, stuff_nil, List.append_nil, h7]
    omega
  have hr (x y : List Byte) : (stateWith x y).block.mem.read .inp 0 ((stateWith x y).block.mem.len .inp) = x :=
    Memory.read_whole _ .inp
  simp only [exec, execStuff, hr, if_pos hl]
  rfl

/-- Frame A of 95_test_vectors.md section 2.4, clean. -/
def frameAClean : List Byte :=
  [0x7E, 0x00, 0x03, 0x00, 0x28] ++ [0x3F, 0x80, 0x00, 0x00, 0x40, 0x20, 0x00, 0x00, 0x3F, 0x7E, 0x00, 0x00] ++
  [0x41, 0x20, 0x00, 0x00, 0x41, 0x11, 0x00, 0x00, 0x41, 0x13, 0x00, 0x00, 0x41, 0x7D, 0x00, 0x00] ++
  [0x42, 0xC8, 0x00, 0x00, 0x41, 0x48, 0x00, 0x00, 0x3F, 0x00, 0x00, 0x00] ++ [0x61, 0x7E]

/-- Its ten words (V-M2). -/
def frameAWords : Vector Word32 10 :=
  #v[0x3F800000, 0x40200000, 0x3F7E0000, 0x41200000, 0x41110000, 0x41130000, 0x417D0000, 0x42C80000, 0x41480000,
    0x3F000000]

/-- V-M2. -/
theorem test_parseMeas : after (exec (.parseMeas .out) (stateWith [] frameAClean)) =
    some { blockWith [] frameAClean with m := frameAWords, mv := true } := by decide

/-- V-M6. -/
theorem test_parseMeas_short :
    (after (exec (.parseMeas .inp) { stateWith [] [] with
      block := { blockWith (frameAClean.take 46) [] with m := frameAWords, mv := true } })).map
        (fun b => (b.m, b.mv, b.res)) = some (Vector.replicate 10 0, false, .malformed) := by decide

/-- V-N1. -/
theorem test_parseSn :
    (after (exec (.parseSn .out) (stateWith []
      [0x7E, 0x00, 0xD0, 0x00, 0x04, 0x41, 0x42, 0x43, 0x00, 0x65, 0x7E]))).map
        (fun b => (b.mem.snBuf, b.sv, b.res)) = some ([0x41, 0x42, 0x43], true, .ok) := by decide

/-- V-N11 and V-N8: only text bytes are range-checked. -/
theorem test_parseSn_ascii :
    parseSerialNumber [0x7E, 0x00, 0xD0, 0x00, 0x02, 0x80, 0x00, 0xAD, 0x7E] = none ∧
    parseSerialNumber [0x7E, 0x80, 0xD0, 0xFF, 0x02, 0x41, 0x00, 0xFF, 0x7E] = some [0x41] := by decide

/-! ### The host's side, the assembler, the parameters -/

/-- P5, checkpoint 1: an illegal word changes only `RES`. -/
theorem test_illegal_word :
    after (step (stateWith [0x01] [0x02] [.write 0 0x8000])) = some { blockWith [0x01] [0x02] with res := .illegalOp } := by
  decide

/-- R32: `STATUS` with both flags, a length, an `M` register, a reserved number. -/
theorem test_register_reads :
    let b := { blockWith [0x01, 0x02, 0x03] [] with m := frameAWords, mv := true, sv := true, res := .overflow }
    b.readReg 0 = 0 ∧ b.readReg 1 = 2 ∧ b.readReg 2 = 3 ∧ b.readReg 3 = 3 ∧ b.readReg 15 = 0 ∧
      b.readReg 16 = 0x3F800000 ∧ b.readReg 25 = 0x3F000000 ∧ b.readReg 26 = 0 := by decide

/-- R51: the byte at an index below the length. -/
theorem test_byte_read :
    (step (stateWith [0x7E, 0x00] [] [.readByte .inp 1])) =
      .next { stateWith [0x7E, 0x00] [] with replies := [.byte 0x00] } := rfl

/-- P4: its text, and the 18 command words it lists. -/
theorem test_assemble_P4 :
    assemble ["LOAD 7E 7D 11 13 00".toList, "STUFF ; OUT = 7D 5E 7D 5D 7D 31 7D 33 00".toList,
      "LOAD 7D 5E 7D 5D 7D 31 7D 33 00 ; host copies OUT back into IN".toList, "DESTUFF".toList] =
    some [0x1000, 0x207E, 0x207D, 0x2011, 0x2013, 0x2000, 0x5000, 0x1000, 0x207D, 0x205E, 0x207D, 0x205D, 0x207D, 0x2031,
      0x207D, 0x2033, 0x2000, 0x4000] := by decide

/-- V-M2: 0.9921875 = 127/128, and 10.0 = 5 * 2 (as 2^23 + T over a power of two); V-M3: the special patterns. -/
theorem test_binary32 :
    Binary32.value 0x3F7E0000 = .finite false (127 * 2 ^ 17) (-24) ∧
    Binary32.value 0x41200000 = .finite false (5 * 2 ^ 21) (-20) ∧
    Binary32.value 0x7FC00000 = .nan ∧ Binary32.value 0xFF800000 = .infinity true ∧
    Binary32.value 0x80000000 = .finite true 0 (-149) ∧ Binary32.value 0x00000001 = .finite false 1 (-149) := by decide

theorem bufCap_ge (n : Nat) (h : n ≤ 94) : n ≤ Config.bufCap := by
  have := bufCap_range
  omega

/-- The templates of G1 (general knowledge) meet R8's constraints, so the parameter may take them. -/
def g1Templates : List Config.Template :=
  [ { bytes := [0x7E, 0x00, 0x00, 0x02, 0x01, 0x03, 0xF9, 0x7E], fits := bufCap_ge _ (by decide) },
    { bytes := [0x7E, 0x00, 0x01, 0x00, 0xFE, 0x7E], fits := bufCap_ge _ (by decide) },
    { bytes := [0x7E, 0x00, 0x03, 0x00, 0xFC, 0x7E], fits := bufCap_ge _ (by decide) },
    { bytes := [0x7E, 0x00, 0xD0, 0x01, 0x03, 0x2B, 0x7E], fits := bufCap_ge _ (by decide) } ]

theorem test_g1_templates : g1Templates.map (·.bytes.length) = [8, 6, 6, 7] := rfl

/-! ### Witnesses: states and operands that meet the hypotheses of the obligations -/

theorem witness_DecodeInvertsEncode : (Instr.push 0xFF).wellFormed = true := by decide

theorem witness_EncodeInvertsDecode : decode 0x7100 = .ok (.parseSn .inp) := by decide

theorem witness_OpcodeMapSelectsTheOperation :
    (0x0000 : CommandWord) &&& 0xFFFF = 0x0000 ∧ (0x1000 : CommandWord) &&& 0xFFFF = 0x1000 ∧
    (0x20FF : CommandWord) &&& 0xFF00 = 0x2000 ∧ (0x3003 : CommandWord) &&& 0xFFFC = 0x3000 ∧
    (0x4000 : CommandWord) &&& 0xFFFF = 0x4000 ∧ (0x5000 : CommandWord) &&& 0xFFFF = 0x5000 ∧
    (0x6100 : CommandWord) &&& 0xFEFF = 0x6000 ∧ (0x7100 : CommandWord) &&& 0xFEFF = 0x7000 ∧
    ((0x7200 : CommandWord) &&& 0xFFFF ∉ [(0x0000 : CommandWord), 0x1000, 0x4000, 0x5000] ∧
      (0x7200 : CommandWord) &&& 0xFF00 ≠ 0x2000 ∧ (0x7200 : CommandWord) &&& 0xFFFC ≠ 0x3000 ∧
      (0x7200 : CommandWord) &&& 0xFEFF ∉ [(0x6000 : CommandWord), 0x7000]) := by decide

theorem witness_IllegalWordsOnlyWriteRes :
    (stateWith [] [] [.write 0 0x8000, .write 0 0x2001]).pending = .write 0 0x8000 :: .write 0 0x2001 :: [] ∧
    decode 0x8000 = .error .opcode ∧ decode 0x2001 = .ok (.push 0x01) := by decide

theorem witness_RejectionNamesAnOffendingField :
    decode 0xF000 = .error .opcode ∧ decode 0x0200 = .error .reserved ∧ decode 0x5100 = .error .sourceSelect ∧
    decode 0x3004 = .error .immediate ∧ decode 0x61FF = .error .immediate ∧ decode 0x0001 = .error .immediate := by decide

/-- Words of PUSH and BUILD whose `imm8` is allowed and whose `rsv` is not (R83): the name is that of `rsv`. -/
theorem test_rejection_of_allowed_immediate :
    decode 0x2201 = .error .reserved ∧ decode 0x3201 = .error .reserved := by decide

theorem witness_StepRunsTheDecodedOperation :
    (stateWith [] [] [.write 0 0x4000, .readReg 4]).pending = .write 0 0x4000 :: [.readReg 4] ∧
    decode 0x4000 = .ok .destuff := by decide

theorem witness_PushAppendsOrOverflows :
    (stateWith (List.replicate Config.bufCap 0) []).block.mem.inBuf.length = Config.bufCap ∧
    (stateWith (List.replicate (Config.bufCap - 1) 0) []).block.mem.inBuf.length < Config.bufCap := by
  have := bufCap_range
  simp [stateWith, blockWith]
  omega

theorem witness_StuffWritesOutOrOverflows :
    (stuff (stateWith [] []).block.mem.inBuf).length ≤ Config.bufCap ∧
    ∃ s : State, Config.bufCap < (stuff s.block.mem.inBuf).length := by
  have h2 : ∀ n, (stuff (List.replicate n 0x7E)).length = 2 * n := by
    intro n
    induction n with
    | zero => rfl
    | succ n ih =>
      have h : (stuffByte 0x7E).length = 2 := by decide
      rw [List.replicate_succ, stuff_cons, List.length_append, ih, h]
      omega
  have hc := bufCap_range
  exact ⟨by simp [stateWith, blockWith], stateWith (List.replicate Config.bufCap 0x7E) [], by
    simp only [stateWith, blockWith, h2]
    omega⟩

theorem witness_ParseMeasLoadsTenWordsOrZeros :
    (stateWith [] frameAClean).block.mem.outBuf.length = 47 ∧
    (stateWith (frameAClean.take 46) []).block.mem.inBuf.length ≠ 47 ∧
    (stateWith (frameAClean ++ [0x00]) []).block.mem.inBuf.length ≠ 47 := by decide

/-- A text of one byte below 0x80, one of one byte at 0x80, and the boundary frame of 8 bytes without text. -/
theorem witness_ParseSnCopiesTextOrEmpties :
    (∀ b ∈ (([0x7E, 0x00, 0xD0, 0x00, 0x02, 0x7F, 0x00, 0xAE, 0x7E] : List Byte).drop 5).take (9 - 8), b.toNat < 0x80) ∧
    (∃ b ∈ (([0x7E, 0x00, 0xD0, 0x00, 0x02, 0x80, 0x00, 0xAD, 0x7E] : List Byte).drop 5).take (9 - 8), 0x80 ≤ b.toNat) ∧
    ([0x7E, 0x00, 0xD0, 0x00, 0x01, 0x00, 0x2E, 0x7E] : List Byte).length ≤ 8 := by decide

theorem witness_PushStoresOneByteAtInLen :
    (∃ t, exec (.push 0x7D) (stateWith [0x7E] []) = .next t) ∧
    (stateWith [0x7E] []).block.mem.len .inp ≠ Config.bufCap ∧
    ∃ t, exec (.push 0x7D) (stateWith (List.replicate Config.bufCap 0) []) = .next t := by
  refine ⟨⟨_, rfl⟩, ?_, ?_⟩
  · have := bufCap_range
    simp only [stateWith, blockWith, Memory.len_inp, List.length_singleton]
    omega
  · simp only [exec, execPush]
    split <;> exact ⟨_, rfl⟩

/-- One operation for each clause, and one that ends with `OVERFLOW`. -/
theorem witness_OperationsKeepWhatTheyDoNotWrite :
    (∃ t, exec .destuff (stateWith [0x7E] []) = .next t) ∧ writesIn .destuff = false ∧
    (∃ t, exec (.parseMeas .inp) (stateWith [0x7E] []) = .next t) ∧ writesOut (.parseMeas .inp) = false ∧
    writesSn (.parseMeas .inp) = false ∧ writesMeas .destuff = false ∧
    (after (exec (.push 0) (stateWith (List.replicate Config.bufCap 0xAB) []))).map (·.res) = some .overflow := by
  refine ⟨⟨_, rfl⟩, rfl, ⟨_, rfl⟩, rfl, rfl, rfl, ?_⟩
  simp [exec, execPush, stateWith, blockWith, after]

/-- Steps that change each component. -/
theorem witness_OnlyItsWritersChangeAComponent :
    (after (step (stateWith frameAClean [] [.write 0 0x6100]))).map (·.mv) = some true ∧
    (after (step (stateWith [] [] [.write 0 0x2001]))).map (·.mem.inBuf) = some [0x01] ∧
    (after (step (stateWith [0x01] [] [.write 0 0x4000]))).map (·.mem.outBuf) = some [0x01] ∧
    (after (step (stateWith [] [] [.write 0 0x7000]))).map (·.sv) = some true ∧
    (after (step (stateWith [] [] [.write 0 0x8000]))).map (·.res) = some .illegalOp ∧
    (after (step (stateWith [0x01] [0x02] [.reset]))).map (·.mem) = some ⟨[], [], []⟩ := by decide

theorem witness_ValidFlagsFollowTheLastParse :
    (∃ t, exec (.parseMeas .out) (stateWith [] frameAClean) = .next t ∧ t.block.mv = true) ∧
    (∃ t, exec (.parseMeas .inp) (stateWith [] frameAClean) = .next t ∧ t.block.mv = false) ∧
    (∃ t, exec (.parseSn .inp) State.reset = .next t) ∧
    (∃ t, exec .nop State.reset = .next t) ∧ (∀ src, Instr.nop ≠ .parseMeas src) ∧ (∀ src, Instr.nop ≠ .parseSn src) ∧
    (∃ t, issue 0x8000 State.reset = .next t) ∧ decode 0x8000 = .error .opcode :=
  ⟨⟨_, rfl, rfl⟩, ⟨_, rfl, rfl⟩, ⟨_, rfl⟩, ⟨_, rfl⟩, nofun, nofun, ⟨_, rfl⟩, by decide⟩

theorem witness_OperationsEndWithTheCodesOfTheTable : decode 0xFFFF = .error .opcode := by decide

theorem witness_EveryCommandWordLeadsToANextState :
    (after (step (stateWith [] [] [.write 0 0xFFFF]))).map (·.res) = some .illegalOp ∧
    step (stateWith [] [] [.twoHosts]) = .refused .twoHosts ∧
    (stateWith [] [] [.twoHosts]).pending = .twoHosts :: [] := ⟨by decide, rfl, rfl⟩

theorem witness_TwoHostsAreRefused : (stateWith [] [] [.twoHosts]).pending = .twoHosts :: [] := rfl

theorem witness_AccessesTakeEffectInOrder :
    ∃ t, run [HostEvent.write 0 0x2055, .readReg 3].length
      { State.reset with pending := [HostEvent.write 0 0x2055, .readReg 3] } = .next t := ⟨_, rfl⟩

theorem reset_inv : Block.reset.Inv where
  mem_wf := Block.reset_mem_wf
  sn_ascii := by simp
  m_zero := by simp
  sn_empty := by simp

/-- The register numbers at the edges of R32's ranges, at the reset state. -/
theorem witness_RegisterNumbersReadAndWrite :
    State.reset.block.Inv ∧
    (∀ n ∈ [0, 1, 2, 3, 4, 5, 6, 15, 16, 25, 26], (stateWith [] [] [.readReg n]).pending = .readReg n :: []) ∧
    (16 + (0 : Fin 10).val = 16 ∧ 16 + (9 : Fin 10).val = 25) ∧
    (∀ n ∈ [1, 16, 26], (stateWith [] [] [.write n 0xFFFF]).pending = .write n 0xFFFF :: [] ∧ n ≠ 0) :=
  ⟨reset_inv, by decide, by decide, by decide⟩

theorem witness_HostByteReadsDeliverAndChangeNothing :
    let s := stateWith [0x7E] [] [.readByte .inp 0, .readByte .inp 1]
    s.pending = .readByte .inp 0 :: [.readByte .inp 1] ∧ 0 < (s.block.mem.buf .inp).length ∧
      (s.block.mem.buf .inp).length ≤ 1 := by decide

theorem witness_ResetEventRestoresTheResetBlock :
    (stateWith [0x01] [] [.reset, .write 0 0x0000]).pending = .reset :: [.write 0 0x0000] := rfl

theorem witness_StepKeepsInvariant :
    State.reset.block.Inv ∧ ∃ t, step (State.reset.withFetchWord 16 0x2055) = .next t := ⟨reset_inv, _, rfl⟩

theorem witness_ReachableStatesMeetInvariant :
    Reachable { State.reset with pending := [.write 0 0x2055] } ∧
    ∃ t, Reachable t ∧ t.block.mem.inBuf = [0x55] :=
  ⟨.reset _, _, .step _ _ (.reset [.write 0 0x2055]) rfl, rfl⟩

theorem witness_EscapeTableHasFourEntries :
    (0x12 : Byte) ∉ [(0x7E : Byte), 0x7D, 0x11, 0x13] ∧ tab 0x33 = some 0x13 := by decide

theorem witness_DestuffIsOneLeftToRightPass :
    (0x00 : Byte) ≠ 0x7D ∧ tab 0x5D = some 0x7D ∧ tab 0x7D = none ∧ (0x7E : Byte) ∉ [(0x5E : Byte), 0x5D, 0x31, 0x33] := by
  decide

theorem witness_DestuffKeepsCleanInput : ¬ HasEscapePair [0x7D] := by
  rintro ⟨i, y, v, _, h, _⟩
  simp at h

/-- A cut after 0x7D before a byte outside the table, and one after another byte before a table byte. -/
theorem witness_DestuffOfAConcatenation :
    (¬ (([0x7D] : List Byte).getLast? = some 0x7D ∧ ∃ y v, ([0x00] : List Byte).head? = some y ∧ tab y = some v)) ∧
    ¬ (([0x00] : List Byte).getLast? = some 0x7D ∧ ∃ y v, ([0x5E] : List Byte).head? = some y ∧ tab y = some v) := by
  refine ⟨?_, by simp⟩
  rintro ⟨_, y, v, hy, hv⟩
  simp only [List.head?_cons, Option.some.injEq] at hy
  subst hy
  exact absurd hv (by simp [tab])

theorem witness_ByteSerialDestufferRefinesDestuff :
    (0x00 : Byte) ≠ 0x7D ∧ tab 0x5E = some 0x7E ∧ tab 0x00 = none := by decide

theorem witness_FourPassesDifferExactlyThere :
    ([0x7D, 0x5D, 0x31] : List Byte) <:+: [0x00, 0x7D, 0x5D, 0x31] := ⟨[0x00], [], rfl⟩

theorem witness_StuffedBytesAndDelimiters :
    (0x5E : Byte) ∈ stuff [0x7E] ∧ (stuff [0x7E])[0]? = some 0x7D := by decide

theorem witness_MeasurementRoundTrip :
    ([0xAA, 0xBB, 0xCC, 0xDD, 0xEE] : List Byte).length = 5 ∧ ([0x12, 0x34] : List Byte).length = 2 := by decide

/-- Two frames of 47 bytes that differ in the last header and the first trailer byte, and two of 9 bytes likewise. -/
theorem witness_HeaderAndTrailerDoNotMatter :
    let f := List.replicate 4 0x00 ++ [0x01] ++ List.replicate 40 (0x00 : Byte) ++ [0x01, 0x00]
    let g := List.replicate 47 (0x00 : Byte)
    f.length = 47 ∧ g.length = 47 ∧ (∀ i < 45, 5 ≤ i → f[i]? = g[i]?) ∧ f ≠ g ∧
    ([0, 0, 0, 0, 1, 0x41, 1, 0, 0] : List Byte)[5]? = ([0, 0, 0, 0, 0, 0x41, 0, 0, 0] : List Byte)[5]? := by decide

theorem witness_WordsAreBigEndian : beBytes 0x12345678 = [0x12, 0x34, 0x56, 0x78] := by decide

theorem witness_ShortSerialFramesAreEmptyAndOk :
    (stateWith [] [0x7E, 0x00, 0xD0, 0x00, 0x01, 0xFF, 0xFF, 0x7E]).block.mem.len Source.out.space ≤ 8 := by decide

theorem witness_RepeatingAnOperationChangesNothing :
    (∀ b, Instr.stuff ≠ .push b) ∧ (∃ t, exec .stuff (stateWith [0x7E] []) = .next t) ∧
    State.reset.block.mem.len .inp + 1 < Config.bufCap ∧
    ∃ t u, exec (.push 0x01) State.reset = .next t ∧ exec (.push 0x01) t = .next u :=
  ⟨nofun, ⟨_, rfl⟩, bufCap_ge 2 (by decide), _, _, rfl, rfl⟩

/-- No byte pushed, all pushed, and one more than fits. -/
theorem witness_PseudoOperationsExpandAndLoad :
    0 ≤ ([] : List Byte).length ∧ 2 ≤ ([0x01, 0x02] : List Byte).length ∧
    Config.bufCap + 1 ≤ (List.replicate (Config.bufCap + 1) (0x00 : Byte)).length := by simp

theorem witness_ReceivedMeasurementFrameIsDecoded : ([0x00, 0x03, 0x00, 0x28] : List Byte).length = 4 := by decide

/-- Frame S of 95_test_vectors.md with the text "01". -/
theorem witness_ReceivedSerialNumberIsDecoded :
    ([0x00, 0xD0, 0x00, 0x11] : List Byte).length = 4 ∧ (∀ b ∈ ([0x30, 0x31] : List Byte), b.toNat < 0x80) ∧
    (wireFrame ([0x00, 0xD0, 0x00, 0x11] ++ [0x30, 0x31] ++ [0x00, 0x7C])).length ≤ Config.bufCap :=
  ⟨by decide, by decide, bufCap_ge _ (by decide)⟩

end Sys2Proof.Tests
end

