-- ==== Sys2Proof/Proofs/Scope.lean ====
section
/-! PROOFS. The parameters' constraints (00_scope.md R8): the delimiter stands at the two ends of a template and nowhere
between them, position by position. -/

namespace Sys2Proof.Config.Template

/-- A position strictly between the ends lies in the stretch that `Template.interior` keeps free of `delim`. -/
theorem mem_interior_of_getElem? {t : Template} {i : Nat} {b : Byte} (hb : t.bytes[i]? = some b)
    (hfirst : i ≠ 0) (hlast : i + 1 ≠ t.bytes.length) : b ∈ t.bytes.tail.dropLast := by
  obtain ⟨hi, -⟩ := List.getElem?_eq_some_iff.mp hb
  have hpos : i - 1 < t.bytes.tail.length - 1 := by rw [List.length_tail]; omega
  refine List.mem_of_getElem? (i := i - 1) ?_
  rw [List.getElem?_dropLast, if_pos hpos, List.getElem?_tail, Nat.sub_add_cancel (by omega), hb]

/-- R8: a template's delimiters are its first and its last byte. -/
theorem getElem?_eq_delim_iff (t : Template) (i : Nat) :
    t.bytes[i]? = some delim ↔ i = 0 ∨ i + 1 = t.bytes.length := by
  constructor
  · intro hi
    by_contra! hends
    exact t.interior delim (mem_interior_of_getElem? hi hends.1 hends.2) rfl
  · rintro (rfl | hlast)
    · rw [← List.head?_eq_getElem?, t.first]
    · rw [Nat.eq_sub_of_add_eq hlast, ← List.getLast?_eq_getElem?, t.last]

end Sys2Proof.Config.Template

namespace Sys2Proof.Proofs

open Sys2Proof

/-- Settles O33: the range of `BUF_CAP` is that of its offset, and a template carries its constraints, whose three
clauses about the delimiter place it at the two ends only. -/
theorem parametersMeetTheirConstraints : Obligations.ParametersMeetTheirConstraints := by
  obtain ⟨hlow, hhigh⟩ := Machine.bufCap_range
  refine ⟨hlow, hhigh, rfl, fun c => ?_⟩
  exact ⟨(Config.template c).two_le, (Config.template c).fits, (Config.template c).getElem?_eq_delim_iff⟩

end Sys2Proof.Proofs
end

/-! PROOFS. The components of the state and what changes them (10_state.md R20 to R33): each operation's effect on the
block, the frame that follows from it, the steps that change a component, and the register file as the host sees it. -/

/-! ### A legal command word is the encoding of its operation (30_encoding.md R82) -/

namespace Sys2Proof

/-- The command number and the command's name carry the same two bits (R84). -/
theorem Command.number_ofNumber : ∀ c : BitVec 2, (Command.ofNumber c).number = c := by decide

/-- The source select bit and the source's name carry the same bit (R80). -/
theorem Source.bit_ofBit : ∀ s : BitVec 1, (Source.ofBit s).bit = s := by decide

/-- Encoding the operation a row assembles from `w` gives the row's fixed bits with the free bits of `w`: a comparison bit
by bit, row by row. -/
theorem OpcodeRow.encode_instr {r : OpcodeRow} (hr : r ∈ opcodeRows) (w : CommandWord) :
    encode (r.instr w) = r.mtch ||| (w &&& ~~~r.mask) := by
  refine BitVec.eq_of_getLsbD_eq fun j hj => ?_
  simp only [opcodeRows, List.mem_cons, List.not_mem_nil, or_false] at hr
  rcases hr with rfl | rfl | rfl | rfl | rfl | rfl | rfl | rfl
  all_goals
    simp only [encode, Command.number_ofNumber, Source.bit_ofBit, BitVec.getLsbD_append]
    interval_cases j <;> simp [CommandWord.imm8, CommandWord.srcBit]

/-- A legal command word is the encoding of the one operation it decodes to: its fixed bits are the row's and its free
bits are the operands. -/
theorem encode_eq_of_decode_eq_ok {w : CommandWord} {i : Instr} (h : decode w = .ok i) : encode i = w := by
  rw [decode] at h
  split at h
  next r hfind =>
    have hfits : w &&& r.mask = r.mtch := by simpa [OpcodeRow.fits] using List.find?_some hfind
    obtain rfl : r.instr w = i := by simpa using h
    rw [OpcodeRow.encode_instr (List.mem_of_find?_eq_some hfind), ← hfits, ← BitVec.and_or_distrib_left,
      BitVec.or_not_self, BitVec.and_allOnes]
  next => cases h

end Sys2Proof

/-! ### What each operation does to the state (R101 to R141) -/

namespace Sys2Proof.Machine

theorem exec_nop (s : State) : exec .nop s = .next { s with block := { s.block with res := .ok } } := rfl

theorem exec_clear (s : State) : exec .clear s =
    .next { s with block := { s.block with mem := { s.block.mem with inBuf := [] }, res := .ok } } := rfl

theorem exec_push_of_full (b : Byte) {s : State} (h : s.block.mem.inBuf.length = Config.bufCap) :
    exec (.push b) s = .next { s with block := { s.block with res := .overflow } } :=
  if_pos h

theorem exec_push_of_room (b : Byte) {s : State} (h : s.block.mem.inBuf.length ≠ Config.bufCap) :
    exec (.push b) s = .next { s with block := { s.block with
      mem := { s.block.mem with inBuf := s.block.mem.inBuf ++ [b] }, res := .ok } } := by
  simp only [exec, execPush, Memory.write_at_len]
  exact if_neg h

theorem exec_build (c : Command) (s : State) : exec (.build c) s = .next { s with block := { s.block with
    mem := { s.block.mem with outBuf := (Config.template c).bytes }, res := .ok } } := by
  rw [exec, execBuild, Memory.assign_eq]
  rfl

theorem exec_destuff (s : State) : exec .destuff s = .next { s with block := { s.block with
    mem := { s.block.mem with outBuf := destuff s.block.mem.inBuf }, res := .ok } } := by
  simp only [exec, execDestuff, Memory.read_whole, Memory.assign_eq]
  rfl

theorem exec_stuff_of_overflow {s : State} (h : Config.bufCap < (stuff s.block.mem.inBuf).length) :
    exec .stuff s = .next { s with block := { s.block with res := .overflow } } := by
  simp only [exec, execStuff, Memory.read_whole]
  exact if_pos h

theorem exec_stuff_of_fits {s : State} (h : (stuff s.block.mem.inBuf).length ≤ Config.bufCap) :
    exec .stuff s = .next { s with block := { s.block with
      mem := { s.block.mem with outBuf := stuff s.block.mem.inBuf }, res := .ok } } := by
  simp only [exec, execStuff, Memory.read_whole, Memory.assign_eq]
  exact if_neg (Nat.not_lt.mpr h)

theorem exec_parseMeas_of_some {src : Source} {s : State} {v : Vector Word32 10}
    (h : parseMeasurements (selectedFrame src s.block.mem) = some v) :
    exec (.parseMeas src) s = .next { s with block := { s.block with m := v, mv := true, res := .ok } } := by
  rw [exec, execParseMeas, h]
  rfl

theorem exec_parseMeas_of_none {src : Source} {s : State}
    (h : parseMeasurements (selectedFrame src s.block.mem) = none) :
    exec (.parseMeas src) s = .next { s with block := { s.block with
      m := Vector.replicate 10 0, mv := false, res := .malformed } } := by
  rw [exec, execParseMeas, h]
  rfl

theorem exec_parseSn_of_some {src : Source} {s : State} {t : List Byte}
    (h : parseSerialNumber (selectedFrame src s.block.mem) = some t) :
    exec (.parseSn src) s = .next { s with block := { s.block with
      mem := { s.block.mem with snBuf := t }, sv := true, res := .ok } } := by
  simp only [exec, execParseSn, h, Memory.assign_eq]
  rfl

theorem exec_parseSn_of_none {src : Source} {s : State}
    (h : parseSerialNumber (selectedFrame src s.block.mem) = none) :
    exec (.parseSn src) s = .next { s with block := { s.block with
      mem := { s.block.mem with snBuf := [] }, sv := false, res := .malformed } } := by
  rw [exec, execParseSn, h]
  rfl

/-! ### An operation writes `RES` and at most one other component (R20) -/

/-- The blocks an operation may leave, by the column "Written by" of R20: `RES` alone is written, or one further component
that names the operation as its writer, and then the code is not `OVERFLOW`. -/
inductive OpEffect (i : Instr) (b : Block) : Block → Prop where
  | res (c : ResultCode) : OpEffect i b { b with res := c }
  | inBuf (bs : List Byte) (hw : writesIn i = true) : OpEffect i b { b with mem := { b.mem with inBuf := bs }, res := .ok }
  | outBuf (bs : List Byte) (hw : writesOut i = true) :
      OpEffect i b { b with mem := { b.mem with outBuf := bs }, res := .ok }
  | meas (v : Vector Word32 10) (mv : Bool) (c : ResultCode) (hw : writesMeas i = true) (hc : c ≠ .overflow) :
      OpEffect i b { b with m := v, mv := mv, res := c }
  | sn (bs : List Byte) (sv : Bool) (c : ResultCode) (hw : writesSn i = true) (hc : c ≠ .overflow) :
      OpEffect i b { b with mem := { b.mem with snBuf := bs }, sv := sv, res := c }

/-- Every operation ends in a next state with one of these effects on the block, and with nothing else changed. -/
theorem exec_effect (i : Instr) (s : State) :
    ∃ b, exec i s = .next { s with block := b } ∧ OpEffect i s.block b := by
  cases i with
  | nop => exact ⟨_, exec_nop s, .res .ok⟩
  | clear => exact ⟨_, exec_clear s, .inBuf [] rfl⟩
  | push c =>
    by_cases hfull : s.block.mem.inBuf.length = Config.bufCap
    · exact ⟨_, exec_push_of_full c hfull, .res .overflow⟩
    · exact ⟨_, exec_push_of_room c hfull, .inBuf _ rfl⟩
  | build c => exact ⟨_, exec_build c s, .outBuf _ rfl⟩
  | destuff => exact ⟨_, exec_destuff s, .outBuf _ rfl⟩
  | stuff =>
    by_cases hfits : (stuff s.block.mem.inBuf).length ≤ Config.bufCap
    · exact ⟨_, exec_stuff_of_fits hfits, .outBuf _ rfl⟩
    · exact ⟨_, exec_stuff_of_overflow (Nat.lt_of_not_le hfits), .res .overflow⟩
  | parseMeas src =>
    cases hp : parseMeasurements (selectedFrame src s.block.mem) with
    | some v => exact ⟨_, exec_parseMeas_of_some hp, .meas v true .ok rfl (by decide)⟩
    | none => exact ⟨_, exec_parseMeas_of_none hp, .meas _ false .malformed rfl (by decide)⟩
  | parseSn src =>
    cases hp : parseSerialNumber (selectedFrame src s.block.mem) with
    | some t => exact ⟨_, exec_parseSn_of_some hp, .sn t true .ok rfl (by decide)⟩
    | none => exact ⟨_, exec_parseSn_of_none hp, .sn [] false .malformed rfl (by decide)⟩

/-- The same of an operation that is known to answer `t`. -/
theorem opEffect_of_exec {i : Instr} {s t : State} (h : exec i s = .next t) : OpEffect i s.block t.block := by
  obtain ⟨b, hb, heff⟩ := exec_effect i s
  rw [hb] at h
  cases h
  exact heff

/-- An operation touches nothing around the block: not the accesses still to come, the replies or the count of draws. -/
theorem exec_surroundings {i : Instr} {s t : State} (h : exec i s = .next t) :
    t.pending = s.pending ∧ t.replies = s.replies ∧ t.draws = s.draws := by
  obtain ⟨b, hb, -⟩ := exec_effect i s
  rw [hb] at h
  cases h
  exact ⟨rfl, rfl, rfl⟩

namespace OpEffect

variable {i : Instr} {b b' : Block}

theorem inBuf_eq (h : OpEffect i b b') (hw : writesIn i = false) : b'.mem.inBuf = b.mem.inBuf := by
  cases h with
  | inBuf bs hw' => simp [hw] at hw'
  | res | outBuf | meas | sn => rfl

theorem outBuf_eq (h : OpEffect i b b') (hw : writesOut i = false) : b'.mem.outBuf = b.mem.outBuf := by
  cases h with
  | outBuf bs hw' => simp [hw] at hw'
  | res | inBuf | meas | sn => rfl

theorem sn_eq (h : OpEffect i b b') (hw : writesSn i = false) : b'.mem.snBuf = b.mem.snBuf ∧ b'.sv = b.sv := by
  cases h with
  | sn bs sv c hw' => simp [hw] at hw'
  | res | inBuf | outBuf | meas => exact ⟨rfl, rfl⟩

theorem meas_eq (h : OpEffect i b b') (hw : writesMeas i = false) : b'.m = b.m ∧ b'.mv = b.mv := by
  cases h with
  | meas v mv c hw' => simp [hw] at hw'
  | res | inBuf | outBuf | sn => exact ⟨rfl, rfl⟩

theorem mem_eq_of_overflow (h : OpEffect i b b') (hov : b'.res = .overflow) : b'.mem = b.mem := by
  cases h with
  | inBuf | outBuf => cases hov
  | sn bs sv c hw hc => exact absurd hov hc
  | res | meas => rfl

end OpEffect

theorem writesMeas_eq_false {i : Instr} (h : ∀ src, i ≠ .parseMeas src) : writesMeas i = false := by
  cases i with
  | parseMeas src => exact absurd rfl (h src)
  | nop | clear | push | build | destuff | stuff | parseSn => rfl

theorem writesSn_eq_false {i : Instr} (h : ∀ src, i ≠ .parseSn src) : writesSn i = false := by
  cases i with
  | parseSn src => exact absurd rfl (h src)
  | nop | clear | push | build | destuff | stuff | parseMeas => rfl

/-- Buffers with the same bytes read the same at every index. -/
theorem Memory.byte_congr {m m' : Memory} {sp : Space} (h : m.buf sp = m'.buf sp) (j : Nat) :
    m.byte sp j = m'.byte sp j := by
  rw [Memory.byte, h, Memory.byte]

/-! ### Which steps change the block -/

/-- A step that answers a next state leaves the block as it was, or served a reset, or the write to `CW` of an operation's
command word or of an illegal one. -/
theorem step_block_cases {s t : State} (h : step s = .next t) :
    t.block = s.block ∨
    (∃ rest, s.pending = .reset :: rest) ∨
    (∃ rest i, s.pending = .write 0 (encode i) :: rest ∧ OpEffect i s.block t.block) ∨
    (∃ rest w, s.pending = .write 0 w :: rest ∧ t.block = s.block.raise .illegalOp) := by
  rcases step_cases h with ⟨-, rfl⟩ | ⟨e, rest, hpend, hserve⟩
  · exact .inl rfl
  rcases serve_cases hserve with ⟨w, i, rfl, hd, hexec⟩ | ⟨w, r, rfl, -, rfl⟩ | ⟨n, v, rfl, -, rfl⟩ | ⟨n, rfl, hread⟩ |
    ⟨sp, j, rfl, hread⟩ | ⟨rfl, -⟩
  · have heff := opEffect_of_exec hexec
    rw [← encode_eq_of_decode_eq_ok hd] at hpend
    exact .inr (.inr (.inl ⟨rest, i, hpend, heff⟩))
  · exact .inr (.inr (.inr ⟨rest, w, hpend, rfl⟩))
  · exact .inl rfl
  · exact .inl (hostReadReg_block hread).1
  · exact .inl (hostReadByte_block hread).1
  · exact .inr (.inl ⟨rest, hpend⟩)

/-- A component `f` that `RES` does not reach, and that only operations selected by `writes` change, is changed by a reset
or by the command word of one of those operations. -/
theorem writer_of_step_changes {α : Type} {f : Block → α} {writes : Instr → Bool}
    (hframe : ∀ i b b', OpEffect i b b' → writes i = false → f b' = f b) (hraise : ∀ c b, f (Block.raise c b) = f b)
    {s t : State} (h : step s = .next t) (hne : f t.block ≠ f s.block) :
    ∃ rest, s.pending = .reset :: rest ∨ ∃ i, writes i = true ∧ s.pending = .write 0 (encode i) :: rest := by
  rcases step_block_cases h with hsame | ⟨rest, hpend⟩ | ⟨rest, i, hpend, heff⟩ | ⟨rest, w, -, hres⟩
  · exact absurd (congrArg f hsame) hne
  · exact ⟨rest, .inl hpend⟩
  · have hw : writes i = true := by
      by_contra hnot
      exact hne (hframe i _ _ heff (Bool.eq_false_iff.mpr hnot))
    exact ⟨rest, .inr ⟨i, hw, hpend⟩⟩
  · exact absurd (by rw [hres, hraise]) hne

/-! ### The flags after a parse (R25) -/

theorem exec_parseMeas_flag {src : Source} {s t : State} (h : exec (.parseMeas src) s = .next t) :
    (t.block.mv = true ∧ t.block.res = .ok) ∨
    (t.block.mv = false ∧ t.block.res = .malformed ∧ t.block.m = Vector.replicate 10 0) := by
  cases hp : parseMeasurements (selectedFrame src s.block.mem) with
  | some v =>
    rw [exec_parseMeas_of_some hp] at h
    cases h
    exact .inl ⟨rfl, rfl⟩
  | none =>
    rw [exec_parseMeas_of_none hp] at h
    cases h
    exact .inr ⟨rfl, rfl, rfl⟩

theorem exec_parseSn_flag {src : Source} {s t : State} (h : exec (.parseSn src) s = .next t) :
    (t.block.sv = true ∧ t.block.res = .ok) ∨ (t.block.sv = false ∧ t.block.res = .malformed) := by
  cases hp : parseSerialNumber (selectedFrame src s.block.mem) with
  | some t =>
    rw [exec_parseSn_of_some hp] at h
    cases h
    exact .inl ⟨rfl, rfl⟩
  | none =>
    rw [exec_parseSn_of_none hp] at h
    cases h
    exact .inr ⟨rfl, rfl⟩

/-! ### The write of a command word (R100, R162) -/

theorem issue_of_ok {w : CommandWord} {i : Instr} (h : decode w = .ok i) (s : State) : issue w s = exec i s := by
  rw [issue, h]

theorem issue_of_error {w : CommandWord} {e : IllegalWord} (h : decode w = .error e) (s : State) :
    issue w s = .next { s with block := { s.block with res := .illegalOp } } := by
  rw [issue, h]
  rfl

/-- No operation reads `RES` (R23). -/
theorem exec_of_res (i : Instr) (s : State) (c : ResultCode) :
    exec i { s with block := { s.block with res := c } } = exec i s := by
  cases i <;> rfl

/-! ### The register file (R32) -/

theorem resWord_toNat (c : ResultCode) : (resWord c).toNat = c.value.toNat := by cases c <;> rfl

theorem statusWord_toNat (mv sv : Bool) :
    (statusWord mv sv).toNat = (if mv then 1 else 0) + (if sv then 2 else 0) := by
  cases mv <;> cases sv <;> rfl

/-- The zeros above a register of 16 bits leave its number as it is. -/
theorem regZeroExtend_toNat (u : BitVec 16) : (u.zeroExtend 32).toNat = u.toNat :=
  BitVec.toNat_setWidth_of_le (by decide)

/-- Every capacity is below 2^16, so a length register holds its buffer's length (R26, R28, R29). -/
theorem Memory.lenReg_toNat {m : Memory} (h : m.wf) (sp : Space) :
    ((BitVec.ofNat 16 (m.len sp)).zeroExtend 32).toNat = m.len sp := by
  have hlen := m.len_le_cap sp h
  have hcap : Memory.cap sp ≤ 65535 := by
    have := bufCap_range
    have := snCap_add
    cases sp <;> simp <;> omega
  rw [regZeroExtend_toNat, BitVec.toNat_ofNat, Nat.mod_eq_of_lt (by omega)]

namespace Block

variable (b : Block)

theorem readReg_res_toNat : (b.readReg 1).toNat = b.res.value.toNat :=
  (regZeroExtend_toNat (resWord b.res)).trans (resWord_toNat b.res)

theorem readReg_status_toNat : (b.readReg 2).toNat = (if b.mv then 1 else 0) + (if b.sv then 2 else 0) :=
  (regZeroExtend_toNat (statusWord b.mv b.sv)).trans (statusWord_toNat b.mv b.sv)

theorem readReg_inLen_toNat {b : Block} (h : b.mem.wf) : (b.readReg 3).toNat = b.mem.inBuf.length :=
  Memory.lenReg_toNat h .inp

theorem readReg_outLen_toNat {b : Block} (h : b.mem.wf) : (b.readReg 4).toNat = b.mem.outBuf.length :=
  Memory.lenReg_toNat h .out

theorem readReg_snLen_toNat {b : Block} (h : b.mem.wf) : (b.readReg 5).toNat = b.mem.snBuf.length :=
  Memory.lenReg_toNat h .sn

theorem readReg_m (k : Fin 10) : b.readReg (16 + k) = b.m[k] := by
  have hrange : 16 ≤ 16 + k.val ∧ 16 + k.val < 26 := by omega
  rw [readReg, dif_pos hrange]
  simp

/-- `CW` and the reserved numbers read 0. -/
theorem readReg_zero {n : Nat} (h : n = 0 ∨ 6 ≤ n ∧ n ≤ 15 ∨ 26 ≤ n) : b.readReg n = 0 := by
  have hrange : ¬ (16 ≤ n ∧ n < 26) := by omega
  rw [readReg, dif_neg hrange]
  split
  case h_6 => rfl
  all_goals omega

/-- A number up to 15 delivers a value of 16 bits. -/
theorem readReg_lt_of_low {n : Nat} (h : n ≤ 15) : (b.readReg n).toNat < 2 ^ 16 := by
  have hword : ∃ u : BitVec 16, b.readReg n = u.zeroExtend 32 := by
    by_cases hzero : n = 0 ∨ 6 ≤ n
    · exact ⟨0, b.readReg_zero (by omega)⟩
    · have hlow : 1 ≤ n ∧ n ≤ 5 := by omega
      obtain ⟨h1, h5⟩ := hlow
      interval_cases n <;> exact ⟨_, rfl⟩
  obtain ⟨u, hu⟩ := hword
  rw [hu, regZeroExtend_toNat]
  exact u.isLt

/-- At reset every register number reads 0 (R32, column "Reset"; R33). -/
theorem readReg_reset (n : Nat) : Block.reset.readReg n = 0 := by
  by_cases hm : 16 ≤ n ∧ n < 26
  · rw [readReg, dif_pos hm, reset_m, Vector.getElem_replicate]
  by_cases hzero : n = 0 ∨ 6 ≤ n
  · exact readReg_zero _ (by omega)
  · have hlow : 1 ≤ n ∧ n ≤ 5 := by omega
    obtain ⟨h1, h5⟩ := hlow
    interval_cases n <;> rfl

end Block

theorem step_readReg {s : State} {rest : List HostEvent} {n : Nat} (h : s.pending = .readReg n :: rest) :
    step s = .next { s with pending := rest, replies := s.replies ++ [.reg (s.block.readReg n)] } :=
  step_serves s _ _ h

/-- A write to any number but that of `CW` is ignored. -/
theorem step_write_of_ne {s : State} {rest : List HostEvent} {n : Nat} {v : BitVec 16}
    (h : s.pending = .write n v :: rest) (hn : n ≠ 0) : step s = .next { s with pending := rest } :=
  (step_serves s _ _ h).trans (if_neg hn)

end Sys2Proof.Machine

/-! ### The obligations of 10_state.md -/

namespace Sys2Proof.Proofs

open Sys2Proof Sys2Proof.Machine

/-- Settles O17: an operation writes `RES` and at most one component whose writer it is (`OpEffect`). -/
theorem operationsKeepWhatTheyDoNotWrite : Obligations.OperationsKeepWhatTheyDoNotWrite := by
  intro i s t h
  have heff := opEffect_of_exec h
  refine ⟨fun hw => ?_, fun hw => ?_, fun hw => ?_, heff.meas_eq, fun hov sp j => ?_, exec_surroundings h⟩
  · exact Memory.byte_congr (sp := .inp) (heff.inBuf_eq hw)
  · exact Memory.byte_congr (sp := .out) (heff.outBuf_eq hw)
  · exact ⟨Memory.byte_congr (sp := .sn) (heff.sn_eq hw).1, (heff.sn_eq hw).2⟩
  · rw [heff.mem_eq_of_overflow hov]

/-- Settles O18: a step that changes the block served a reset or a write to `CW`, and an operation changes only what it
writes. -/
theorem onlyItsWritersChangeAComponent : Obligations.OnlyItsWritersChangeAComponent := by
  intro s t h
  refine ⟨?_, ?_, ?_, ?_, ?_⟩
  · rintro (hm | hmv)
    · exact writer_of_step_changes (f := Block.m) (fun i b b' heff hw => (heff.meas_eq hw).1) Block.raise_m h hm
    · exact writer_of_step_changes (f := Block.mv) (fun i b b' heff hw => (heff.meas_eq hw).2) Block.raise_mv h hmv
  · exact writer_of_step_changes (f := (·.mem.inBuf)) (fun i b b' => OpEffect.inBuf_eq) (fun c b => rfl) h
  · exact writer_of_step_changes (f := (·.mem.outBuf)) (fun i b b' => OpEffect.outBuf_eq) (fun c b => rfl) h
  · rintro (hsn | hsv)
    · exact writer_of_step_changes (f := (·.mem.snBuf)) (fun i b b' heff hw => (heff.sn_eq hw).1) (fun c b => rfl) h hsn
    · exact writer_of_step_changes (f := Block.sv) (fun i b b' heff hw => (heff.sn_eq hw).2) Block.raise_sv h hsv
  · intro hres
    rcases step_block_cases h with hsame | ⟨rest, hpend⟩ | ⟨rest, i, hpend, -⟩ | ⟨rest, w, hpend, -⟩
    · exact absurd (congrArg Block.res hsame) hres
    · exact ⟨rest, .inl hpend⟩
    · exact ⟨rest, .inr ⟨_, hpend⟩⟩
    · exact ⟨rest, .inr ⟨w, hpend⟩⟩

/-- Settles O19: each parser sets its flag and `RES` together, and no other operation, and no illegal word, writes the
flag. -/
theorem validFlagsFollowTheLastParse : Obligations.ValidFlagsFollowTheLastParse := by
  refine ⟨fun src s t h => ?_, fun src s t h => ?_, fun i s t hi h => ?_, fun i s t hi h => ?_, fun w e s t hd h => ?_,
    rfl, rfl⟩
  · rcases exec_parseMeas_flag h with ⟨hmv, hres⟩ | ⟨hmv, hres, hm⟩
    · simp [hmv, hres]
    · simp [hmv, hres, hm]
  · rcases exec_parseSn_flag h with ⟨hsv, hres⟩ | ⟨hsv, hres⟩ <;> simp [hsv, hres]
  · exact ((opEffect_of_exec h).meas_eq (writesMeas_eq_false hi)).2
  · exact ((opEffect_of_exec h).sn_eq (writesSn_eq_false hi)).2
  · rw [issue_of_error hd] at h
    cases h
    exact ⟨rfl, rfl⟩

/-- Settles O22: no operation reads `RES`, and the effect of an illegal word is to overwrite it. -/
theorem resultCodeIsNotSticky : Obligations.ResultCodeIsNotSticky := by
  refine ⟨⟨rfl, rfl, rfl, rfl⟩, fun w s c => ?_⟩
  cases hd : decode w with
  | ok i => rw [issue_of_ok hd, issue_of_ok hd, exec_of_res]
  | error e => rw [issue_of_error hd, issue_of_error hd]

/-- Settles O25: the read column of R32 number by number; the lengths fit their registers by the invariant. -/
theorem registerNumbersReadAndWrite : Obligations.RegisterNumbersReadAndWrite := by
  refine ⟨fun s rest n hpend hinv => ?_, fun s rest n v => step_write_of_ne, Block.readReg_reset, fun n hn => ?_,
    fun k => ?_⟩
  · refine ⟨s.block.readReg n, step_readReg hpend, s.block.readReg_lt_of_low, fun h0 => s.block.readReg_zero (by omega),
      ?_, ?_, ?_, ?_, ?_, fun h6 h15 => s.block.readReg_zero (by omega), ?_, fun h26 => s.block.readReg_zero (by omega)⟩
    · rintro rfl; exact s.block.readReg_res_toNat
    · rintro rfl; exact s.block.readReg_status_toNat
    · rintro rfl; exact Block.readReg_inLen_toNat hinv.mem_wf
    · rintro rfl; exact Block.readReg_outLen_toNat hinv.mem_wf
    · rintro rfl; exact Block.readReg_snLen_toNat hinv.mem_wf
    · rintro k rfl; exact s.block.readReg_m k
  · rw [regWidth, if_pos (by omega)]
  · rw [regWidth, if_neg (by omega), if_pos (by omega)]

/-- Settles O27: the reset block is written out zero, and BUILD delivers the template from every state. -/
theorem resetStateIsAllZero : Obligations.ResetStateIsAllZero := by
  refine ⟨by simp, rfl, rfl, rfl, fun sp i => ?_, rfl, rfl, rfl, fun c => ⟨_, exec_build c _, rfl⟩⟩
  cases sp <;> rfl

end Sys2Proof.Proofs

/-! PROOFS. The byte order, the accesses to the byte spaces and their ordering (20_memory.md R51 to R53, R60): a word as
the concatenation of its four bytes, what a host's byte read delivers, and that serving an access looks at no later one. -/

namespace Sys2Proof.Machine

/-! ### A word is its four bytes in a row, most significant first (R53) -/

/-- A concatenation as a number, in base `2 ^ n`. -/
theorem toNat_append_eq_mul_add {m n : Nat} (x : BitVec m) (y : BitVec n) :
    (x ++ y).toNat = x.toNat * 2 ^ n + y.toNat := by
  rw [BitVec.toNat_append, ← Nat.shiftLeft_add_eq_or_of_lt y.isLt, Nat.shiftLeft_eq]

theorem be32_eq_append (b0 b1 b2 b3 : Byte) : be32 b0 b1 b2 b3 = b0 ++ b1 ++ b2 ++ b3 := by
  refine BitVec.eq_of_getLsbD_eq fun j hj => ?_
  simp only [be32, BitVec.getLsbD_append]
  interval_cases j <;> simp

theorem be32_toNat (b0 b1 b2 b3 : Byte) : (be32 b0 b1 b2 b3).toNat =
    b0.toNat * 2 ^ 24 + b1.toNat * 2 ^ 16 + b2.toNat * 2 ^ 8 + b3.toNat := by
  rw [be32_eq_append]
  simp only [toNat_append_eq_mul_add]
  omega

/-- The bytes of a word are its digits in base 2^8, and these make up the word. -/
theorem beBytes_eq_iff {w : Word32} {b0 b1 b2 b3 : Byte} : beBytes w = [b0, b1, b2, b3] ↔ be32 b0 b1 b2 b3 = w := by
  simp only [beBytes, List.cons.injEq, and_true, ← BitVec.toNat_inj, BitVec.extractLsb'_toNat, be32_toNat,
    Nat.shiftRight_eq_div_pow]
  omega

/-! ### A host's read of one byte (R51, R52) -/

theorem hostReadByte_of_lt {sp : Space} {i : Nat} {s : State} (h : i < (s.block.mem.buf sp).length) :
    hostReadByte sp i s = .next { s with replies := s.replies ++ [.byte (s.block.mem.buf sp)[i]] } := by
  rw [hostReadByte, Memory.byte, List.getElem?_eq_getElem h]

theorem hostReadByte_of_le {sp : Space} {i : Nat} {s : State} (h : (s.block.mem.buf sp).length ≤ i) :
    hostReadByte sp i s = .next { s with
      replies := s.replies ++ [.byte (Config.unspecifiedByte s.draws)], draws := s.draws + 1 } := by
  rw [hostReadByte, Memory.byte, List.getElem?_eq_none h]

/-! ### Serving an access looks at no later one (R60) -/

/-- A byte read finds its reply in the block and in the count of draws. -/
theorem hostReadByte_pending {sp : Space} {i : Nat} {s t : State} (p : List HostEvent)
    (h : hostReadByte sp i s = .next t) :
    hostReadByte sp i { s with pending := p } = .next { t with pending := p } := by
  rcases Nat.lt_or_ge i (s.block.mem.buf sp).length with hi | hi
  · rw [hostReadByte_of_lt hi] at h
    cases h
    exact hostReadByte_of_lt (s := { s with pending := p }) hi
  · rw [hostReadByte_of_le hi] at h
    cases h
    exact hostReadByte_of_le (s := { s with pending := p }) hi

/-- Whatever is still to come, an access is served in the same way and what is still to come stays. -/
theorem serve_pending {e : HostEvent} {s t : State} (p : List HostEvent) (h : serve e s = .next t) :
    serve e { s with pending := p } = .next { t with pending := p } := by
  rcases serve_cases h with ⟨w, i, rfl, hd, hexec⟩ | ⟨w, r, rfl, hd, rfl⟩ | ⟨n, v, rfl, hn, rfl⟩ | ⟨n, rfl, hread⟩ |
    ⟨sp, i, rfl, hread⟩ | ⟨rfl, rfl⟩
  · exact (issue_of_ok hd _).trans (exec_pending i s t p hexec)
  · exact issue_of_error hd _
  · exact if_neg hn
  · cases hread
    rfl
  · exact hostReadByte_pending p hread
  · rfl

/-- Serving an access takes nothing out of the queue and puts nothing in. -/
theorem pending_of_serve {e : HostEvent} {s t : State} (h : serve e s = .next t) : t.pending = s.pending := by
  have hsame : serve e s = .next { t with pending := s.pending } := serve_pending s.pending h
  rw [h] at hsame
  injection hsame with ht
  rw [ht]

/-! ### Runs of the machine -/

theorem run_succ_of_step {s u : State} (h : step s = .next u) (k : Nat) : run (k + 1) s = run k u := by
  simp only [run, Host.Core.run, core, h]

theorem step_of_run_succ {k : Nat} {s t : State} (h : run (k + 1) s = .next t) :
    ∃ u, step s = .next u ∧ run k u = .next t := by
  cases hs : step s with
  | next u => exact ⟨u, rfl, run_succ_of_step hs k ▸ h⟩
  | fault r => cases r
  | refused r => simp [run, Host.Core.run, core, hs] at h

/-- A run of `j + k` steps is a run of `j` steps and then one of `k` steps. -/
theorem run_add {j : Nat} {s t : State} (h : run j s = .next t) (k : Nat) : run (j + k) s = run k t := by
  induction j generalizing s with
  | zero =>
    cases h
    rw [Nat.zero_add]
  | succ j ih =>
    obtain ⟨u, hstep, hrun⟩ := step_of_run_succ h
    rw [Nat.succ_add, run_succ_of_step hstep, ih hrun]

/-- Serving the accesses `a` does the same when `b` waits behind them, and leaves `b`. -/
theorem run_queue_append {a : List HostEvent} {s t : State} (b : List HostEvent)
    (h : run a.length { s with pending := a } = .next t) :
    run a.length { s with pending := a ++ b } = .next { t with pending := b } := by
  induction a generalizing s with
  | nil =>
    cases h
    rfl
  | cons e a ih =>
    obtain ⟨u, hstep, hrun⟩ := step_of_run_succ h
    have hserve : serve e { s with pending := a } = .next u := hstep
    obtain rfl : u.pending = a := pending_of_serve hserve
    have hstep' : step { s with pending := e :: (u.pending ++ b) } = .next { u with pending := u.pending ++ b } :=
      serve_pending (s := { s with pending := u.pending }) _ hserve
    exact (run_succ_of_step hstep' _).trans (ih hrun)

end Sys2Proof.Machine

/-! ### The obligations of 20_memory.md -/

namespace Sys2Proof.Proofs

open Sys2Proof Sys2Proof.Machine

/-- Settles O24: no access looks at the ones behind it, so serving the first ones leaves exactly the rest of the
queue; with nothing behind them, it leaves nothing. -/
theorem accessesTakeEffectInOrder : Obligations.AccessesTakeEffectInOrder := by
  intro a b s t h
  constructor
  · have hrun := run_queue_append [] h
    rw [List.append_nil, h] at hrun
    exact congrArg State.pending (Host.Outcome.next.inj hrun)
  · exact run_add (run_queue_append b h) b.length

/-- Settles O51: a word is the number whose digits in base 2^8 are its four bytes. -/
theorem wordsAreBigEndian : Obligations.WordsAreBigEndian :=
  ⟨be32_toNat, fun _ _ _ _ => beBytes_eq_iff.mpr rfl, fun _ _ _ _ _ => beBytes_eq_iff.mp⟩

/-- Settles O23: the step serves the event, and serving it is the refusal. -/
theorem twoHostsAreRefused : Obligations.TwoHostsAreRefused :=
  fun s rest hpend => step_serves s .twoHosts rest hpend

/-- Settles O26: below the length the byte is present; at or above it the delivered byte is the next free draw. -/
theorem hostByteReadsDeliverAndChangeNothing : Obligations.HostByteReadsDeliverAndChangeNothing := by
  intro s rest sp i hpend
  rw [step_serves s _ _ hpend]
  exact ⟨fun hi => hostReadByte_of_lt (s := { s with pending := rest }) hi,
    fun hi => ⟨_, hostReadByte_of_le (s := { s with pending := rest }) hi⟩⟩

end Sys2Proof.Proofs

/-! PROOFS. Command words and what the host makes of them (30_encoding.md): the opcode map as a set of rows without
overlap, the legal words field by field, and the operations of the pseudo-operations run one after another. -/

/-! ### The rows of the opcode map (R82) -/

namespace Sys2Proof

namespace OpcodeRow

theorem fits_iff {r : OpcodeRow} {w : CommandWord} : r.fits w = true ↔ w &&& r.mask = r.mtch := beq_iff_eq

/-- Two rows that ask for different bits under their common mask have no word in common. -/
theorem not_fits_both {r r' : OpcodeRow} (h : r.mtch &&& r'.mask ≠ r'.mtch &&& r.mask) (w : CommandWord) :
    ¬ (r.fits w = true ∧ r'.fits w = true) := by
  rintro ⟨hr, hr'⟩
  rw [fits_iff] at hr hr'
  exact h (by rw [← hr, ← hr', BitVec.and_assoc, BitVec.and_assoc, BitVec.and_comm r.mask])

end OpcodeRow

/-- R82: "rows do not overlap". -/
theorem opcodeRows_pairwise : opcodeRows.Pairwise fun r r' => ∀ w, ¬ (r.fits w = true ∧ r'.fits w = true) := by
  have hbits : opcodeRows.Pairwise fun r r' => r.mtch &&& r'.mask ≠ r'.mtch &&& r.mask := by decide
  exact hbits.imp OpcodeRow.not_fits_both

/-- A word that fits a row decodes to that row's operation: no earlier row fits it. -/
theorem decode_of_fits {r : OpcodeRow} (hr : r ∈ opcodeRows) {w : CommandWord} (hw : w &&& r.mask = r.mtch) :
    decode w = .ok (r.instr w) := by
  have hfits := OpcodeRow.fits_iff.mpr hw
  obtain ⟨before, after, hsplit⟩ := List.append_of_mem hr
  have hpair := opcodeRows_pairwise
  rw [hsplit, List.pairwise_append] at hpair
  obtain ⟨-, -, hcross⟩ := hpair
  have hbefore : ∀ a ∈ before, (!a.fits w) = true := fun a ha => by
    simpa [hfits] using hcross a ha r List.mem_cons_self w
  have hfind : opcodeRows.find? (·.fits w) = some r :=
    List.find?_eq_some_iff_append.mpr ⟨hfits, before, after, hsplit, hbefore⟩
  rw [decode, hfind]

/-- A word that fits no row is rejected. -/
theorem decode_of_not_fits {w : CommandWord} (h : ∀ r ∈ opcodeRows, w &&& r.mask ≠ r.mtch) :
    decode w = .error (illegalReason w) := by
  have hfind : opcodeRows.find? (·.fits w) = none :=
    List.find?_eq_none.mpr fun r hr hfits => h r hr (OpcodeRow.fits_iff.mp hfits)
  rw [decode, hfind]

/-- A rejection is never by another name than `illegalReason`'s. -/
theorem illegalReason_of_decode_eq_error {w : CommandWord} {e : IllegalWord} (h : decode w = .error e) :
    illegalReason w = e := by
  rw [decode] at h
  split at h
  next => cases h
  next => simpa using h

/-- The lowest `n` bits of a word, taken as a field or by its width. -/
theorem CommandWord.extractLsb'_zero (w : CommandWord) (n : Nat) : w.extractLsb' 0 n = w.setWidth n :=
  BitVec.eq_of_toNat_eq (by simp)

theorem CommandWord.imm8_eq_setWidth (w : CommandWord) : w.imm8 = w.setWidth 8 := w.extractLsb'_zero 8

theorem Source.ofBit_srcBit (w : CommandWord) :
    Source.ofBit w.srcBit = if w.getLsbD 8 then .inp else .out := by
  have hbit : w.srcBit = BitVec.ofBool (w.getLsbD 8) := by
    refine BitVec.eq_of_getLsbD_eq fun j hj => ?_
    obtain rfl : j = 0 := by omega
    simp [CommandWord.srcBit]
  rw [hbit]
  cases w.getLsbD 8 <;> rfl

/-! ### Decoding an encoded operation gives it back (R81, R85) -/

theorem decode_push_row {w : CommandWord} (h : w &&& 0xFF00 = 0x2000) : decode w = .ok (.push (w.setWidth 8)) := by
  rw [← CommandWord.imm8_eq_setWidth]
  exact decode_of_fits (r := opcodeRows[2]) (List.getElem_mem _) h

theorem decode_encode_push (b : Byte) : decode (encode (.push b)) = .ok (.push b) := by
  have hfits : encode (.push b) &&& (0xFF#8 ++ 0#8) = 0x20#8 ++ 0#8 := by
    rw [encode, BitVec.and_append, BitVec.and_zero]
    rfl
  rw [decode_push_row hfits, encode, BitVec.setWidth_append_eq_right]

theorem decode_encode (i : Instr) : decode (encode i) = .ok i := by
  cases i with
  | push b => exact decode_encode_push b
  | build c => cases c <;> rfl
  | parseMeas s => cases s <;> rfl
  | parseSn s => cases s <;> rfl
  | nop | clear | destuff | stuff => rfl

/-! ### The 268 legal words (R82) -/

/-- Every operation once, by the free field of its row. -/
def allInstrs : List Instr :=
  [.nop, .clear, .destuff, .stuff] ++ (List.finRange 256).map (fun n => .push (.ofFin n)) ++
    [Command.startFan, .stopFan, .readMeasurements, .readSerialNumber].map .build ++
    [Source.out, .inp].map .parseMeas ++ [Source.out, .inp].map .parseSn

theorem mem_allInstrs (i : Instr) : i ∈ allInstrs := by
  cases i with
  | push b => simp [allInstrs]
  | build c => cases c <;> simp [allInstrs]
  | parseMeas s => cases s <;> simp [allInstrs]
  | parseSn s => cases s <;> simp [allInstrs]
  | nop | clear | destuff | stuff => simp [allInstrs]

theorem allInstrs_nodup : allInstrs.Nodup := by
  have hpush : ((List.finRange 256).map fun n => Instr.push (.ofFin n)).Nodup :=
    (List.nodup_finRange 256).map fun a b h => by simpa using h
  simp [allInstrs, List.nodup_append, hpush]

theorem encode_injective : Function.Injective encode := fun i j h => by
  have hdec := decode_encode i
  rw [h, decode_encode] at hdec
  exact (Except.ok.inj hdec).symm

theorem mem_map_encode_allInstrs {w : CommandWord} : w ∈ allInstrs.map encode ↔ ∃ i, decode w = .ok i := by
  rw [List.mem_map]
  constructor
  · rintro ⟨i, -, rfl⟩
    exact ⟨i, decode_encode i⟩
  · rintro ⟨i, h⟩
    exact ⟨i, mem_allInstrs i, encode_eq_of_decode_eq_ok h⟩

end Sys2Proof

/-! ### The legal words field by field (R80, R83) -/

namespace Sys2Proof

namespace CommandWord

variable (w : CommandWord)

theorem opc_toNat : w.opc.toNat = w.toNat / 4096 := by
  have := w.isLt
  rw [opc, BitVec.extractLsb'_toNat, Nat.shiftRight_eq_div_pow]
  omega

theorem rsv_ne_zero_iff : w.rsv ≠ 0 ↔ w.toNat / 512 % 8 ≠ 0 := by
  rw [rsv, ne_eq, ← BitVec.toNat_inj, BitVec.extractLsb'_toNat, Nat.shiftRight_eq_div_pow]
  rfl

theorem srcBit_toNat : w.srcBit.toNat = w.toNat / 256 % 2 := by
  rw [srcBit, BitVec.extractLsb'_toNat, Nat.shiftRight_eq_div_pow]

theorem srcBit_ne_zero_iff : w.srcBit ≠ 0 ↔ w.toNat / 256 % 2 = 1 := by
  rw [← Nat.mod_two_ne_zero, ← srcBit_toNat, ne_eq, ← BitVec.toNat_inj]
  rfl

theorem imm8_toNat : w.imm8.toNat = w.toNat % 256 := by
  rw [imm8_eq_setWidth, BitVec.toNat_setWidth]

/-- R83's check as a proposition about the word's number. -/
theorem wellFormed_iff : w.wellFormed = true ↔
    w.toNat / 4096 < 8 ∧ w.toNat / 512 % 8 = 0 ∧
    (w.toNat / 256 % 2 = 0 ∨ w.toNat / 4096 = 6 ∨ w.toNat / 4096 = 7) ∧
    (w.toNat % 256 = 0 ∨ w.toNat / 4096 = 2 ∨ w.toNat / 4096 = 3 ∧ w.toNat % 256 / 4 = 0) := by
  simp only [wellFormed, Bool.and_eq_true, Bool.or_eq_true, decide_eq_true_eq, and_assoc, or_assoc]

end CommandWord

/-! Each encoding with an operand as a number: the row's fixed part plus the operand in its place (R85). -/

theorem encode_push_toNat (b : Byte) : (encode (.push b)).toNat = 0x2000 + b.toNat :=
  Machine.toNat_append_eq_mul_add _ _

theorem encode_build_toNat (c : Command) : (encode (.build c)).toNat = 0x3000 + c.number.toNat :=
  Machine.toNat_append_eq_mul_add _ _

theorem encode_parseMeas_toNat (s : Source) : (encode (.parseMeas s)).toNat = 0x6000 + 256 * s.bit.toNat := by
  cases s <;> rfl

theorem encode_parseSn_toNat (s : Source) : (encode (.parseSn s)).toNat = 0x7000 + 256 * s.bit.toNat := by
  cases s <;> rfl

/-- Every encoding passes R83's check. -/
theorem wellFormed_encode (i : Instr) : (encode i).wellFormed = true := by
  cases i with
  | push b =>
    have := b.isLt
    rw [CommandWord.wellFormed_iff, encode_push_toNat]
    omega
  | build c => cases c <;> rfl
  | parseMeas s => cases s <;> rfl
  | parseSn s => cases s <;> rfl
  | nop | clear | destuff | stuff => rfl

/-- A word that passes R83's check is the encoding of the operation that its operation code names, with the operand read
from its fields. -/
theorem exists_encode_eq_of_wellFormed {w : CommandWord} (h : w.wellFormed = true) : ∃ i, encode i = w := by
  obtain ⟨hopc, hrsv, hsrc, himm⟩ := w.wellFormed_iff.mp h
  have hcases : w.toNat / 4096 = 0 ∨ w.toNat / 4096 = 1 ∨ w.toNat / 4096 = 2 ∨ w.toNat / 4096 = 3 ∨
      w.toNat / 4096 = 4 ∨ w.toNat / 4096 = 5 ∨ w.toNat / 4096 = 6 ∨ w.toNat / 4096 = 7 := by omega
  rcases hcases with h0 | h1 | h2 | h3 | h4 | h5 | h6 | h7
  · exact ⟨.nop, BitVec.eq_of_toNat_eq (show 0x0000 = w.toNat by omega)⟩
  · exact ⟨.clear, BitVec.eq_of_toNat_eq (show 0x1000 = w.toNat by omega)⟩
  · refine ⟨.push w.imm8, BitVec.eq_of_toNat_eq ?_⟩
    rw [encode_push_toNat, w.imm8_toNat]
    omega
  · refine ⟨.build (Command.ofNumber (w.setWidth 2)), BitVec.eq_of_toNat_eq ?_⟩
    rw [encode_build_toNat, Command.number_ofNumber, BitVec.toNat_setWidth]
    omega
  · exact ⟨.destuff, BitVec.eq_of_toNat_eq (show 0x4000 = w.toNat by omega)⟩
  · exact ⟨.stuff, BitVec.eq_of_toNat_eq (show 0x5000 = w.toNat by omega)⟩
  · refine ⟨.parseMeas (Source.ofBit w.srcBit), BitVec.eq_of_toNat_eq ?_⟩
    rw [encode_parseMeas_toNat, Source.bit_ofBit, w.srcBit_toNat]
    omega
  · refine ⟨.parseSn (Source.ofBit w.srcBit), BitVec.eq_of_toNat_eq ?_⟩
    rw [encode_parseSn_toNat, Source.bit_ofBit, w.srcBit_toNat]
    omega

/-- R83's check and R82's table agree on which words are legal. -/
theorem wellFormed_iff_decode_ok {w : CommandWord} : w.wellFormed = true ↔ ∃ i, decode w = .ok i := by
  constructor
  · intro h
    obtain ⟨i, rfl⟩ := exists_encode_eq_of_wellFormed h
    exact ⟨i, decode_encode i⟩
  · rintro ⟨i, h⟩
    rw [← encode_eq_of_decode_eq_ok h]
    exact wellFormed_encode i

theorem not_wellFormed_iff_decode_error {w : CommandWord} : ¬ w.wellFormed = true ↔ ∃ e, decode w = .error e := by
  rw [wellFormed_iff_decode_ok]
  cases decode w <;> simp

/-- What the name of a rejection says of the word's fields: it is that of the first field, in the order of R83, that is
not as every operation has it, and the immediate when the others are. -/
theorem decode_error_cases {w : CommandWord} {e : IllegalWord} (h : decode w = .error e) :
    (e = .opcode ∧ 8 ≤ w.toNat / 4096) ∨
    (e = .reserved ∧ w.toNat / 512 % 8 ≠ 0) ∨
    (e = .sourceSelect ∧ w.toNat / 256 % 2 = 1 ∧ w.toNat / 4096 < 6) ∨
    (e = .immediate ∧ w.toNat / 4096 < 8 ∧ w.toNat / 512 % 8 = 0 ∧
      (w.toNat / 256 % 2 = 0 ∨ 6 ≤ w.toNat / 4096)) := by
  rw [← illegalReason_of_decode_eq_error h]
  simp only [illegalReason, w.opc_toNat, w.rsv_ne_zero_iff, w.srcBit_ne_zero_iff]
  split
  next hopc => exact .inl ⟨rfl, hopc⟩
  split
  next hrsv => exact .inr (.inl ⟨rfl, hrsv⟩)
  split
  next hsrc => exact .inr (.inr (.inl ⟨rfl, hsrc⟩))
  next => exact .inr (.inr (.inr ⟨rfl, by omega⟩))

end Sys2Proof

namespace Sys2Proof.Machine

theorem step_write_cw {s : State} {rest : List HostEvent} {w : CommandWord}
    (h : s.pending = .write cwNumber w :: rest) : step s = issue w { s with pending := rest } :=
  step_serves s _ _ h

theorem run_one (s : State) : run 1 s = step s := by
  cases hs : step s with
  | next t => exact run_succ_of_step hs 0
  | fault r => cases r
  | refused r => simp [run, Host.Core.run, core, hs]

end Sys2Proof.Machine

/-! ### The host's operations served one after another (R86, R173) -/

namespace Sys2Proof.Machine

@[simp] theorem commandWrites_cons (w : CommandWord) (ws : List CommandWord) :
    commandWrites (w :: ws) = .write cwNumber w :: commandWrites ws := rfl

@[simp] theorem commandWrites_append (ws ws' : List CommandWord) :
    commandWrites (ws ++ ws') = commandWrites ws ++ commandWrites ws' := List.map_append

@[simp] theorem commandWrites_length (ws : List CommandWord) : (commandWrites ws).length = ws.length :=
  List.length_map _

section WithOps
variable (s : State) (is : List Instr)
@[simp] theorem State.withOps_block : (s.withOps is).block = s.block := rfl
@[simp] theorem State.withOps_pending : (s.withOps is).pending = commandWrites (is.map encode) := rfl
@[simp] theorem State.withOps_replies : (s.withOps is).replies = s.replies := rfl
@[simp] theorem State.withOps_draws : (s.withOps is).draws = s.draws := rfl
end WithOps

/-- A step whose oldest access is an operation's own command word is that operation. -/
theorem step_encode {s : State} {rest : List HostEvent} {i : Instr}
    (h : s.pending = .write cwNumber (encode i) :: rest) : step s = exec i { s with pending := rest } := by
  rw [step_write_cw h, issue_of_ok (decode_encode i)]

/-! ### LOAD (R86, R102, R103) -/

/-- The state after the CLEAR and the first `k` PUSHes of `LOAD bs`: `IN` holds as many of the first `k` bytes as fit,
and the other PUSHes are still to come. -/
def State.loading (s : State) (bs : List Byte) (k : Nat) : State :=
  { s with
    pending := commandWrites ((bs.drop k).map fun b => encode (.push b)),
    block := { s.block with
      mem := { s.block.mem with inBuf := (bs.take k).take Config.bufCap },
      res := if k ≤ Config.bufCap then .ok else .overflow } }

/-- The CLEAR of a LOAD. -/
theorem step_load_clear (s : State) (bs : List Byte) : step (s.withOps (loadOps bs)) = .next (s.loading bs 0) := by
  rw [step_encode (i := .clear) rfl, exec_clear]
  simp [State.loading, commandWrites, Function.comp_def]

/-- The PUSH of byte `k` of a LOAD: it is appended when `k` bytes leave room, and otherwise dropped with `OVERFLOW`. -/
theorem step_load_push (s : State) {bs : List Byte} {k : Nat} (hk : k < bs.length) :
    step (s.loading bs k) = .next (s.loading bs (k + 1)) := by
  have hpend : (s.loading bs k).pending = .write cwNumber (encode (.push bs[k])) ::
      commandWrites ((bs.drop (k + 1)).map fun b => encode (.push b)) := by
    rw [State.loading, List.drop_eq_getElem_cons hk]
    rfl
  have hlen : (s.loading bs k).block.mem.inBuf.length = min Config.bufCap k := by
    simp only [State.loading, List.length_take]
    omega
  rw [step_encode hpend]
  by_cases hroom : k < Config.bufCap
  · have htake : (bs.take (k + 1)).take Config.bufCap = (bs.take k).take Config.bufCap ++ [bs[k]] := by
      rw [List.take_take, List.take_take, Nat.min_eq_right (by omega), Nat.min_eq_right (by omega),
        List.take_succ_eq_append_getElem hk]
    rw [exec_push_of_room _ (by simp only [hlen]; omega)]
    simp only [State.loading, htake]
    rw [if_pos (by omega)]
  · have htake : (bs.take (k + 1)).take Config.bufCap = (bs.take k).take Config.bufCap := by
      rw [List.take_take, List.take_take, Nat.min_eq_left (by omega), Nat.min_eq_left (by omega)]
    rw [exec_push_of_full _ (by simp only [hlen]; omega)]
    simp only [State.loading, htake]
    rw [if_neg (by omega)]

/-- LOAD at each of its operations. -/
theorem run_load (s : State) {bs : List Byte} {k : Nat} (hk : k ≤ bs.length) :
    run (k + 1) (s.withOps (loadOps bs)) = .next (s.loading bs k) := by
  induction k with
  | zero => rw [run_one, step_load_clear]
  | succ k ih => rw [run_add (ih (by omega)) 1, run_one, step_load_push s hk]

/-- A LOAD of bytes that fit in `IN` leaves exactly those bytes there, and what waits behind it is still to come. -/
theorem run_load_then (s : State) {bs : List Byte} (hfit : bs.length ≤ Config.bufCap) (is : List Instr) (k : Nat) :
    run (bs.length + 1 + k) (s.withOps (loadOps bs ++ is)) = run k { s with
      pending := commandWrites (is.map encode),
      block := { s.block with mem := { s.block.mem with inBuf := bs }, res := .ok } } := by
  have hlen : (commandWrites ((loadOps bs).map encode)).length = bs.length + 1 := by simp [loadOps]
  have hload := run_queue_append (commandWrites (is.map encode)) (hlen.symm ▸ run_load s (Nat.le_refl bs.length))
  rw [hlen] at hload
  have hall := run_add hload k
  simpa [State.withOps, State.loading, List.take_of_length_le, hfit] using hall

end Sys2Proof.Machine

/-! ### Destuffing a received wire frame (R70, R113, R120) -/

namespace Sys2Proof.Machine

/-- Only an escape byte can begin a pair. -/
theorem destuff_cons_of_ne {x : Byte} (h : x ≠ esc) (xs : List Byte) : destuff (x :: xs) = x :: destuff xs := by
  cases xs with
  | nil => rfl
  | cons y ys => rw [destuff, if_neg h]

theorem destuff_pair {y v : Byte} (h : tab y = some v) (xs : List Byte) :
    destuff (esc :: y :: xs) = v :: destuff xs := by
  rw [destuff, if_pos rfl, h]

/-- The first stuffed byte is undone whatever follows it. -/
theorem destuff_stuffByte_append (b : Byte) (xs : List Byte) : destuff (stuffByte b ++ xs) = b :: destuff xs := by
  rcases stuffByte_cases b with ⟨hself, hne⟩ | ⟨y, hpair, htab, -⟩
  · rw [hself]
    exact destuff_cons_of_ne hne xs
  · rw [hpair]
    exact destuff_pair htab xs

theorem destuff_stuff_append (bs xs : List Byte) : destuff (stuff bs ++ xs) = bs ++ destuff xs := by
  induction bs with
  | nil => rfl
  | cons b bs ih => rw [stuff_cons, List.append_assoc, destuff_stuffByte_append, ih, List.cons_append]

/-- R122 law 3: the delimiters pass through and the content comes back. -/
theorem destuff_wireFrame (c : List Byte) : destuff (wireFrame c) = [delim] ++ c ++ [delim] := by
  have hends : destuff [delim] = [delim] := rfl
  rw [wireFrame, List.append_assoc, List.singleton_append, destuff_cons_of_ne (by decide), destuff_stuff_append, hends,
    List.append_assoc, List.singleton_append]

theorem stuffByte_length_le (b : Byte) : (stuffByte b).length ≤ 2 := by
  rcases stuffByte_cases b with ⟨hself, -⟩ | ⟨y, hpair, -⟩
  · simp [hself]
  · simp [hpair]

theorem stuff_length_le (bs : List Byte) : (stuff bs).length ≤ 2 * bs.length := by
  induction bs with
  | nil => rfl
  | cons b bs ih =>
    have := stuffByte_length_le b
    rw [stuff_cons, List.length_append, List.length_cons]
    omega

theorem wireFrame_length_le (c : List Byte) : (wireFrame c).length ≤ 2 * c.length + 2 := by
  have := stuff_length_le c
  simp only [wireFrame, List.length_append, List.length_singleton]
  omega

/-! ### The clean frames of the two responses (R73, R74, R130, R140) -/

/-- Of equally long pieces in a row, byte `j` of piece `k` is at index `n * k + j`. -/
theorem getElem?_flatMap_of_length {α β : Type} {f : α → List β} {n : Nat} (hf : ∀ a, (f a).length = n)
    (l : List α) {k j : Nat} (hk : k < l.length) (hj : j < n) :
    (l.flatMap f)[n * k + j]? = (f l[k])[j]? := by
  induction l generalizing k with
  | nil => simp at hk
  | cons a l ih =>
    rw [List.flatMap_cons]
    cases k with
    | zero => rw [Nat.mul_zero, Nat.zero_add, List.getElem?_append_left (by rw [hf]; exact hj), List.getElem_cons_zero]
    | succ k =>
      rw [List.getElem?_append_right (by rw [hf, Nat.mul_succ]; omega), hf, List.getElem_cons_succ,
        ← ih (Nat.lt_of_succ_lt_succ hk)]
      congr 1
      rw [Nat.mul_succ]
      omega

theorem words_length (v : Vector Word32 10) : (v.toList.flatMap beBytes).length = 40 := by
  simp [List.length_flatMap, beBytes]

theorem measFrame_length (hdr : List Byte) (v : Vector Word32 10) (trl : List Byte) :
    (measFrame hdr v trl).length = hdr.length + 40 + trl.length := by
  rw [measFrame, List.length_append, List.length_append, words_length]

/-- Byte `j` of word `k` stands at index `5 + 4k + j` of a measurement frame (R73). -/
theorem getD_measFrame {hdr : List Byte} (hhdr : hdr.length = 5) (v : Vector Word32 10) (trl : List Byte) (k : Fin 10)
    {j : Nat} (hj : j < 4) : (measFrame hdr v trl).getD (5 + 4 * k + j) 0 = (beBytes v[k]).getD j 0 := by
  have hk := k.isLt
  have hwords := words_length v
  have hword : (v.toList.flatMap beBytes)[4 * k.val + j]? = (beBytes v[k])[j]? :=
    getElem?_flatMap_of_length (f := beBytes) (n := 4) (fun _ => rfl) v.toList (by simp) hj
  rw [List.getD_eq_getElem?_getD, List.getD_eq_getElem?_getD, ← hword, measFrame, List.append_assoc,
    List.getElem?_append_right (by omega), List.getElem?_append_left (by omega)]
  congr 2
  omega

/-- R136: the parser gives back the words of a frame. -/
theorem parseMeasurements_measFrame {hdr trl : List Byte} (v : Vector Word32 10) (hhdr : hdr.length = 5)
    (htrl : trl.length = 2) : parseMeasurements (measFrame hdr v trl) = some v := by
  rw [parseMeasurements_of_length _ (by rw [measFrame_length]; omega)]
  refine congrArg some (Vector.ext fun k hk => ?_)
  rw [Vector.getElem_ofFn]
  have hbyte (j : Nat) (hj : j < 4) := getD_measFrame hhdr v trl ⟨k, hk⟩ hj
  have hfirst : (measFrame hdr v trl).getD (5 + 4 * k) 0 = (beBytes v[k]).getD 0 0 := hbyte 0 (by decide)
  rw [hfirst, hbyte 1 (by decide), hbyte 2 (by decide), hbyte 3 (by decide)]
  exact beBytes_eq_iff.mp rfl

/-- The text of a serial-number frame is what stands between its five header and three trailer bytes, maybe nothing. -/
theorem snText_frame {hdr trl : List Byte} (text : List Byte) (hhdr : hdr.length = 5) (htrl : trl.length = 3) :
    snText (hdr ++ text ++ trl) = text := by
  have hlen : (hdr ++ text ++ trl).length - 8 = text.length := by
    rw [List.length_append, List.length_append]
    omega
  rw [snText_eq, hlen, List.append_assoc, List.drop_left' hhdr, List.take_left]
  split
  next hshort =>
    rw [List.length_append, List.length_append] at hshort
    exact (List.eq_nil_of_length_eq_zero (by omega)).symm
  next => rfl

theorem parseSerialNumber_frame {hdr text trl : List Byte} (hhdr : hdr.length = 5) (htrl : trl.length = 3)
    (hascii : ∀ b ∈ text, b.toNat < 0x80) : parseSerialNumber (hdr ++ text ++ trl) = some text := by
  have htext := snText_frame text hhdr htrl
  rw [parseSerialNumber_of_ascii _ (htext.symm ▸ hascii), htext]

/-! ### The receive path: LOAD, DESTUFF and a parse of `OUT` (R86) -/

/-- After LOAD of a wire frame that fits and the DESTUFF behind it, `IN` holds the raw and `OUT` the clean frame. -/
theorem run_load_destuff (s : State) {c : List Byte} (hfit : (wireFrame c).length ≤ Config.bufCap) (i : Instr) :
    run ((wireFrame c).length + 3) (s.withOps (loadOps (wireFrame c) ++ [.destuff, i])) = exec i { s with
      pending := [],
      block := { s.block with
        res := .ok,
        mem := { s.block.mem with inBuf := wireFrame c, outBuf := [delim] ++ c ++ [delim] } } } := by
  rw [run_load_then s hfit [.destuff, i] 2, run_succ_of_step ((step_encode rfl).trans (exec_destuff _)), run_one,
    step_encode rfl]
  simp only [destuff_wireFrame]
  rfl

end Sys2Proof.Machine

/-! ### The obligations of 30_encoding.md -/

namespace Sys2Proof.Proofs

open Sys2Proof Sys2Proof.Machine

/-- Settles O1: the encoding of an operation fits its row, and the row's free field is the operand. -/
theorem decodeInvertsEncode : Obligations.DecodeInvertsEncode := fun i _ => decode_encode i

/-- Settles O2: the row that a legal word fits fixes all of its bits but the operand's. -/
theorem encodeInvertsDecode : Obligations.EncodeInvertsDecode := fun _ _ => encode_eq_of_decode_eq_ok

/-- Settles O3: `decode_of_fits` row by row; the rows ask for different bits; the legal words are the encodings of all
operations. -/
theorem opcodeMapSelectsTheOperation : Obligations.OpcodeMapSelectsTheOperation := by
  refine ⟨fun w h => ?_, fun w h => ?_, fun w h => ?_, fun w h => ?_, fun w h => ?_, fun w h => ?_, fun w h => ?_,
    fun w h => ?_, fun w hfixed hpush hbuild hparse => ?_, opcodeRows_pairwise, ?_⟩
  · exact decode_of_fits (r := opcodeRows[0]) (List.getElem_mem _) h
  · exact decode_of_fits (r := opcodeRows[1]) (List.getElem_mem _) h
  · exact decode_push_row h
  · rw [← CommandWord.extractLsb'_zero]
    exact decode_of_fits (r := opcodeRows[3]) (List.getElem_mem _) h
  · exact decode_of_fits (r := opcodeRows[4]) (List.getElem_mem _) h
  · exact decode_of_fits (r := opcodeRows[5]) (List.getElem_mem _) h
  · rw [← Source.ofBit_srcBit]
    exact decode_of_fits (r := opcodeRows[6]) (List.getElem_mem _) h
  · rw [← Source.ofBit_srcBit]
    exact decode_of_fits (r := opcodeRows[7]) (List.getElem_mem _) h
  · refine ⟨_, decode_of_not_fits fun r hr => ?_⟩
    simp only [List.mem_cons, List.not_mem_nil, or_false, not_or] at hfixed hparse
    obtain ⟨hnop, hclear, hdestuff, hstuff⟩ := hfixed
    obtain ⟨hmeas, hsn⟩ := hparse
    simp only [opcodeRows, List.mem_cons, List.not_mem_nil, or_false] at hr
    rcases hr with rfl | rfl | rfl | rfl | rfl | rfl | rfl | rfl <;> assumption
  · exact ⟨allInstrs.map encode, allInstrs_nodup.map encode_injective, by simp [allInstrs],
      fun w => mem_map_encode_allInstrs⟩

/-- Settles O5: the check of R83's fields and the decoder accept the same words, and a rejection's name comes from
reading the fields in order (`decode_error_cases`). An immediate is named when the other fields are as they should be, so
it is what fails the check. -/
theorem rejectionNamesAnOffendingField : Obligations.RejectionNamesAnOffendingField := by
  refine ⟨fun w => wellFormed_iff_decode_ok, fun w h => ?_, fun w h => ?_, fun w h => ?_, fun w h => ?_⟩
  · simpa using decode_error_cases h
  · simpa using decode_error_cases h
  · simpa using decode_error_cases h
  · have hothers : w.toNat / 4096 < 8 ∧ w.toNat / 512 % 8 = 0 ∧
        (w.toNat / 256 % 2 = 0 ∨ 6 ≤ w.toNat / 4096) := by simpa using decode_error_cases h
    have hillegal := not_wellFormed_iff_decode_error.mpr ⟨_, h⟩
    rw [CommandWord.wellFormed_iff] at hillegal
    simp only [List.mem_cons, List.not_mem_nil, or_false]
    omega

/-- Settles O4: the rejected words are those that fail R83's check, and serving one overwrites `RES` alone. -/
theorem illegalWordsOnlyWriteRes : Obligations.IllegalWordsOnlyWriteRes := by
  refine ⟨fun w => ?_, fun s rest w e hpend hd => ?_, fun s rest w w' e i hpend hd hd' => ?_⟩
  · rw [← not_wellFormed_iff_decode_error, CommandWord.wellFormed_iff]
    simp only [List.mem_cons, List.not_mem_nil, or_false]
    omega
  · rw [step_write_cw hpend, issue_of_error hd]
  · have hstep : step s = .next { s with
        pending := .write 0 w' :: rest, block := { s.block with res := .illegalOp } } := by
      rw [step_write_cw hpend, issue_of_error hd]
    rw [run_succ_of_step hstep, run_one, step_write_cw rfl, issue_of_ok hd']

/-- Settles O54: `run_load`, by induction on the number of bytes pushed. -/
theorem pseudoOperationsExpandAndLoad : Obligations.PseudoOperationsExpandAndLoad :=
  ⟨fun _ => rfl, rfl, rfl, fun s _ _ hk => run_load s hk⟩

/-- Settles O55: destuffing a wire frame gives its content between the delimiters, which parses to the ten words. -/
theorem receivedMeasurementFrameIsDecoded : Obligations.ReceivedMeasurementFrameIsDecoded := by
  rintro s v hdr chk raw hhdr rfl
  have hlen : (wireFrame (measFrame hdr v [chk])).length ≤ 92 := by
    have := wireFrame_length_le (measFrame hdr v [chk])
    rw [measFrame_length, hhdr, List.length_singleton] at this
    omega
  refine ⟨hlen, ?_⟩
  have hclean : [delim] ++ measFrame hdr v [chk] ++ [delim] = measFrame (0x7E :: hdr) v [chk, 0x7E] := by
    simp [measFrame, delim]
  have hparse : parseMeasurements (measFrame (0x7E :: hdr) v [chk, 0x7E]) = some v :=
    parseMeasurements_measFrame v (congrArg Nat.succ hhdr) rfl
  have hrun := run_load_destuff s (hlen.trans (by have := bufCap_range; omega)) (.parseMeas .out)
  rw [hclean] at hrun
  refine hrun.trans ?_
  rw [exec_parseMeas_of_some ((congrArg parseMeasurements (selectedFrame_out _)).trans hparse)]

/-- Settles O56: destuffing a wire frame gives its content between the delimiters, whose text is ASCII. -/
theorem receivedSerialNumberIsDecoded : Obligations.ReceivedSerialNumberIsDecoded := by
  rintro s hdr text nul chk raw hhdr hascii rfl hfit
  have hclean : [delim] ++ (hdr ++ text ++ [nul, chk]) ++ [delim] = [0x7E] ++ hdr ++ text ++ [nul, chk, 0x7E] := by
    simp [delim]
  have hparse : parseSerialNumber ([0x7E] ++ hdr ++ text ++ [nul, chk, 0x7E]) = some text :=
    parseSerialNumber_frame (congrArg Nat.succ hhdr) rfl hascii
  have hrun := run_load_destuff s hfit (.parseSn .out)
  rw [hclean] at hrun
  refine hrun.trans ?_
  rw [exec_parseSn_of_some ((congrArg parseSerialNumber (selectedFrame_out _)).trans hparse)]

/-- Settles O6: fifteen closed words, decoded by evaluation. -/
theorem sampleCommandWordsDecode : Obligations.SampleCommandWordsDecode := by
  unfold Obligations.SampleCommandWordsDecode
  decide

/-- Settles O57: closed lines, assembled by evaluation. -/
theorem assemblerLinesGiveTheirWords : Obligations.AssemblerLinesGiveTheirWords := by
  unfold Obligations.AssemblerLinesGiveTheirWords
  decide

end Sys2Proof.Proofs

/-! PROOFS. The write of a command word, NOP, CLEAR and PUSH (40_host_buffer_ops.md R100 to R103): the word of a table
entry, PUSH's word as a sum, and the one byte that PUSH stores. -/

namespace Sys2Proof

/-- PUSH's word as its row's fixed part plus the byte (R82). -/
theorem encode_push_eq_add (b : Byte) : encode (.push b) = 0x2000 + b.setWidth 16 := by
  refine BitVec.eq_of_toNat_eq ?_
  have hfixed : (0x2000 : CommandWord).toNat = 0x2000 := rfl
  have hb := b.isLt
  rw [encode_push_toNat, BitVec.toNat_add, BitVec.toNat_setWidth, hfixed]
  omega

theorem tableWord_toNat (w : CommandWord) : tableWord 16 w.toNat = w := by
  rw [tableWord, Nat.mod_eq_of_lt w.isLt, BitVec.ofNat_toNat, BitVec.setWidth_eq]

end Sys2Proof

namespace Sys2Proof.Machine

/-! ### Serving the write of a legal word (R100) -/

theorem step_write_of_decode {s : State} {rest : List HostEvent} {w : CommandWord} {i : Instr}
    (hpend : s.pending = .write cwNumber w :: rest) (hd : decode w = .ok i) :
    step s = exec i { s with pending := rest } := by
  rw [step_write_cw hpend, issue_of_ok hd]

theorem withFetchWord_pending (s : State) (w : CommandWord) :
    (s.withFetchWord 16 w.toNat).pending = .write cwNumber w :: s.pending := by
  rw [State.withFetchWord, tableWord_toNat]

/-! ### One byte appended to a buffer (R103) -/

namespace Memory
variable (m : Memory) {sp sp' : Space} (b : Byte)

theorem byte_append_self : (m.setBuf sp (m.buf sp ++ [b])).byte sp (m.len sp) = some b := by
  rw [byte, buf_setBuf_self, len, List.getElem?_concat_length]

/-- Below the old length an append keeps the byte, above the new one there is none, and it touches no other buffer. -/
theorem byte_append_of_ne {i : Nat} (h : ¬ (sp' = sp ∧ i = m.len sp)) :
    (m.setBuf sp (m.buf sp ++ [b])).byte sp' i = m.byte sp' i := by
  by_cases hsp : sp' = sp
  · subst hsp
    have hi : i ≠ (m.buf sp').length := fun hi => h ⟨rfl, hi⟩
    rw [byte, buf_setBuf_self, byte]
    rcases Nat.lt_or_gt_of_ne hi with hlt | hgt
    · exact List.getElem?_append_left hlt
    · rw [List.getElem?_eq_none hgt.le, List.getElem?_eq_none (by simpa using hgt)]
  · exact byte_congr (buf_setBuf_other m sp sp' _ hsp) i

end Memory

/-- What PUSH leaves of the buffers: all of them when `IN` is full, else `IN` with the byte appended. -/
theorem mem_of_exec_push {b : Byte} {s t : State} (h : exec (.push b) s = .next t) :
    (s.block.mem.len .inp = Config.bufCap ∧ t.block.mem = s.block.mem) ∨
    (s.block.mem.len .inp ≠ Config.bufCap ∧
      t.block.mem = s.block.mem.setBuf .inp (s.block.mem.buf .inp ++ [b])) := by
  by_cases hfull : s.block.mem.len .inp = Config.bufCap
  · rw [exec_push_of_full b hfull] at h
    cases h
    exact .inl ⟨hfull, rfl⟩
  · rw [exec_push_of_room b hfull] at h
    cases h
    exact .inr ⟨hfull, rfl⟩

end Sys2Proof.Machine

/-! ### The obligations of 40_host_buffer_ops.md -/

namespace Sys2Proof.Proofs

open Sys2Proof Sys2Proof.Machine

/-- Settles O7: the step issues the word, which decodes to the operation. -/
theorem stepRunsTheDecodedOperation : Obligations.StepRunsTheDecodedOperation :=
  ⟨fun _ _ _ _ hpend hd => step_write_of_decode hpend hd,
    fun s w _ hd => step_write_of_decode (withFetchWord_pending s w) hd⟩

/-- Settles O8: the word is NOP's encoding, and NOP's meaning is `exec_nop`. -/
theorem nopOnlySetsResOk : Obligations.NopOnlySetsResOk := ⟨decode_encode .nop, exec_nop⟩

/-- Settles O9: the word is CLEAR's encoding, and CLEAR's meaning is `exec_clear`. -/
theorem clearEmptiesIn : Obligations.ClearEmptiesIn := ⟨decode_encode .clear, exec_clear⟩

/-- Settles O10: the two branches of PUSH, and `BUF_CAP` below `2 ^ 16`. -/
theorem pushAppendsOrOverflows : Obligations.PushAppendsOrOverflows := by
  refine fun b s => ⟨?_, exec_push_of_full b, exec_push_of_room b, fun hroom => ?_⟩
  · rw [← encode_push_eq_add, decode_encode]
  · have := bufCap_range
    omega

/-- Settles O16: PUSH keeps the buffers or appends its byte to `IN`, and of the other components it writes only `RES`. -/
theorem pushStoresOneByteAtInLen : Obligations.PushStoresOneByteAtInLen := by
  intro b s t h
  have heff := opEffect_of_exec h
  obtain ⟨hm, hmv⟩ := heff.meas_eq rfl
  obtain ⟨-, hsv⟩ := heff.sn_eq rfl
  rcases mem_of_exec_push h with ⟨hfull, hmem⟩ | ⟨hroom, hmem⟩
  · rw [hmem]
    exact ⟨fun _ _ _ => rfl, fun hroom => absurd hfull hroom, fun _ _ _ => rfl, hm, hmv, hsv⟩
  · rw [hmem]
    exact ⟨fun _ _ hne => Memory.byte_append_of_ne _ b hne, fun _ => Memory.byte_append_self _ b,
      fun hfull => absurd hfull hroom, hm, hmv, hsv⟩

end Sys2Proof.Proofs

/-! PROOFS. The frame codec's operations (41_framecodec.md R110 to R121): `destuff` where no pair begins and how long its
output is, and how many bytes `stuff` adds. -/

namespace Sys2Proof.Machine

/-! ### One pass of `destuff` (R113, R115) -/

theorem tab_of_not_mem {y : Byte} (h : y ∉ [(0x5E : Byte), 0x5D, 0x31, 0x33]) : tab y = none := by
  simp only [List.mem_cons, List.not_mem_nil, or_false, not_or] at h
  obtain ⟨h5E, h5D, h31, h33⟩ := h
  rw [tab, if_neg h5E, if_neg h5D, if_neg h31, if_neg h33]

/-- An escape byte that begins no pair is copied, and the byte behind it is examined in its turn. -/
theorem destuff_esc_of_tab_none {y : Byte} (h : tab y = none) (xs : List Byte) :
    destuff (esc :: y :: xs) = esc :: destuff (y :: xs) := by
  rw [destuff, if_pos rfl, h]

/-- R115 law 1, without its case of equality: every output byte consumes at least one input byte. -/
theorem destuff_length_le (bs : List Byte) : (destuff bs).length ≤ bs.length := by
  induction bs using destuff.induct with
  | case1 => rfl
  | case2 x => rfl
  | case3 x y rest v hpair ih =>
    rw [destuff, hpair]
    exact Nat.succ_le_succ (Nat.le_succ_of_le ih)
  | case4 x y rest hcopy ih =>
    rw [destuff, hcopy]
    exact Nat.succ_le_succ ih

/-! ### The length of the stuffed form (R121) -/

/-- The bytes that have an entry in the escape table (R72). -/
def isReserved (b : Byte) : Bool := b = 0x7E || b = 0x7D || b = 0x11 || b = 0x13

theorem isReserved_iff {b : Byte} : isReserved b = true ↔ b = 0x7E ∨ b = 0x7D ∨ b = 0x11 ∨ b = 0x13 := by
  simp only [isReserved, Bool.or_eq_true, decide_eq_true_eq, or_assoc]

theorem stuffByte_length (b : Byte) : (stuffByte b).length = 1 + if isReserved b then 1 else 0 := by
  by_cases hres : b = 0x7E ∨ b = 0x7D ∨ b = 0x11 ∨ b = 0x13
  · rcases hres with rfl | rfl | rfl | rfl <;> rfl
  · rw [if_neg (mt isReserved_iff.mp hres)]
    simp only [not_or] at hres
    obtain ⟨h7E, h7D, h11, h13⟩ := hres
    rw [stuffByte, if_neg h7E, if_neg h7D, if_neg h11, if_neg h13, List.length_singleton]

theorem stuff_length (bs : List Byte) : (stuff bs).length = bs.length + bs.countP isReserved := by
  induction bs with
  | nil => rfl
  | cons b bs ih =>
    rw [stuff_cons, List.length_append, stuffByte_length, ih, List.length_cons, List.countP_cons]
    omega

end Sys2Proof.Machine

/-! ### The obligations of 41_framecodec.md -/

namespace Sys2Proof.Proofs

open Sys2Proof Sys2Proof.Machine

/-- Settles O12: DESTUFF's meaning is `exec_destuff`, and `destuff` never lengthens. -/
theorem destuffWritesOut : Obligations.DestuffWritesOut :=
  ⟨decode_encode .destuff, fun s => ⟨exec_destuff s, destuff_length_le _⟩⟩

/-- Settles O13: the two branches of STUFF, and the length of the stuffed form by induction on the input. -/
theorem stuffWritesOutOrOverflows : Obligations.StuffWritesOutOrOverflows :=
  ⟨decode_encode .stuff, fun _ => ⟨exec_stuff_of_overflow, exec_stuff_of_fits, stuff_length _, stuff_length_le _⟩⟩

/-- Settles O11: BUILD's meaning is `exec_build`, and the template carries its bound. -/
theorem buildDeliversTheTemplate : Obligations.BuildDeliversTheTemplate :=
  ⟨exec_build, fun c => (Config.template c).fits, decode_encode (.build .startFan), decode_encode (.build .stopFan),
    decode_encode (.build .readMeasurements), decode_encode (.build .readSerialNumber)⟩

/-- Settles O35: `destuff` at a byte that is no escape byte, at a pair, and at an escape byte that begins no pair. -/
theorem destuffIsOneLeftToRightPass : Obligations.DestuffIsOneLeftToRightPass :=
  ⟨destuff_nil, rfl, fun _ rest hne => destuff_cons_of_ne hne rest, fun _ _ rest hpair => destuff_pair hpair rest,
    fun _ rest hnone => destuff_esc_of_tab_none hnone rest, rfl, rfl, rfl, rfl, fun _ => tab_of_not_mem⟩

/-- Settles O44: `stuff` byte by byte; the table for one byte is `stuffByte`. -/
theorem stuffEscapesByteByByte : Obligations.StuffEscapesByteByByte := ⟨stuff_nil, stuff_cons⟩

end Sys2Proof.Proofs

/-! PROOFS. The response parsers and their operations (42_responseparser.md R130 to R143): each operation is its parser
on the selected buffer, and each parser looks at no header or trailer byte. -/

namespace Sys2Proof.Machine

/-- A parser's operand is the whole of the buffer that its source names (R133). -/
theorem selectedFrame_eq_buf (src : Source) (m : Memory) : selectedFrame src m = m.buf src.space :=
  m.read_whole src.space

/-! ### The words of a measurement frame stand between header and trailer (R130, R137) -/

theorem parseMeasurements_congr {f g : List Byte} (hf : f.length = 47) (hg : g.length = 47)
    (h : ∀ i, 5 ≤ i → i < 45 → f[i]? = g[i]?) : parseMeasurements f = parseMeasurements g := by
  have hbyte (i : Nat) (hlow : 5 ≤ i) (hhigh : i < 45) : f.getD i 0 = g.getD i 0 := by
    rw [List.getD_eq_getElem?_getD, List.getD_eq_getElem?_getD, h i hlow hhigh]
  rw [parseMeasurements_of_length f hf, parseMeasurements_of_length g hg]
  refine congrArg (fun word => some (Vector.ofFn word)) (funext fun k => ?_)
  have hk := k.isLt
  rw [hbyte (5 + 4 * k) (by omega) (by omega), hbyte (5 + 4 * k + 1) (by omega) (by omega),
    hbyte (5 + 4 * k + 2) (by omega) (by omega), hbyte (5 + 4 * k + 3) (by omega) (by omega)]

/-! ### The text of a serial-number frame (R140, R143) -/

theorem snText_of_length_le {f : List Byte} (h : f.length ≤ 8) : snText f = [] := by
  rw [snText_eq, if_pos h]

/-- Text byte `i` stands at index `i + 5` of the frame, and the text ends three bytes before the frame does. -/
theorem getElem?_snText (f : List Byte) (i : Nat) :
    (snText f)[i]? = if i + 8 < f.length then f[i + 5]? else none := by
  by_cases hshort : f.length ≤ 8
  · rw [snText_of_length_le hshort, if_neg (by omega), List.getElem?_nil]
  · rw [snText_eq, if_neg hshort, List.getElem?_take, List.getElem?_drop, Nat.add_comm 5 i]
    exact if_congr (by omega) rfl rfl

theorem snText_congr {f g : List Byte} (hlen : f.length = g.length)
    (h : ∀ i, 5 ≤ i → i + 3 < f.length → f[i]? = g[i]?) : snText f = snText g := by
  refine List.ext_getElem? fun i => ?_
  rw [getElem?_snText, getElem?_snText, ← hlen]
  split
  next hi => exact h (i + 5) (by omega) (by omega)
  next => rfl

theorem parseSerialNumber_congr {f g : List Byte} (h : snText f = snText g) :
    parseSerialNumber f = parseSerialNumber g := by
  rw [parseSerialNumber, parseSerialNumber, h]

/-- R143: no text byte, so none that is not ASCII. -/
theorem parseSerialNumber_of_length_le {f : List Byte} (h : f.length ≤ 8) : parseSerialNumber f = some [] := by
  have htext := snText_of_length_le h
  rw [parseSerialNumber_of_ascii f (by simp [htext]), htext]

end Sys2Proof.Machine

/-! ### The obligations of 42_responseparser.md -/

namespace Sys2Proof.Proofs

open Sys2Proof Sys2Proof.Machine

/-- Settles O14: PARSE_MEAS is `parseMeasurements` on the selected buffer, which accepts exactly the length 47. -/
theorem parseMeasLoadsTenWordsOrZeros : Obligations.ParseMeasLoadsTenWordsOrZeros := by
  refine ⟨decode_encode (.parseMeas .out), decode_encode (.parseMeas .inp), fun src s f hf => ?_⟩
  obtain rfl : selectedFrame src s.block.mem = f := by cases src <;> simp [hf]
  constructor
  · intro hlen
    exact ⟨_, exec_parseMeas_of_some (parseMeasurements_of_length _ hlen), fun k => Vector.getElem_ofFn k.isLt⟩
  · intro hne
    exact ⟨_, exec_parseMeas_of_none (parseMeasurements_of_ne _ hne), fun k => Vector.getElem_replicate k.isLt⟩

/-- Settles O15: PARSE_SN is `parseSerialNumber` on the selected buffer, which accepts exactly an ASCII text. -/
theorem parseSnCopiesTextOrEmpties : Obligations.ParseSnCopiesTextOrEmpties := by
  refine ⟨decode_encode (.parseSn .out), decode_encode (.parseSn .inp), fun src s f t hf ht => ?_⟩
  obtain rfl : selectedFrame src s.block.mem = f := by cases src <;> simp [hf]
  obtain rfl : t = snText (selectedFrame src s.block.mem) := ht.trans (snText_eq _).symm
  exact ⟨fun hascii => exec_parseSn_of_some (parseSerialNumber_of_ascii _ hascii),
    fun hnot => exec_parseSn_of_none (parseSerialNumber_of_not_ascii _ hnot)⟩

/-- Settles O50: the ten words and the text are built from bytes between header and trailer. -/
theorem headerAndTrailerDoNotMatter : Obligations.HeaderAndTrailerDoNotMatter := by
  refine ⟨fun f g hf hg h => ⟨parseMeasurements_congr hf hg h, ?_⟩,
    fun f g hlen h => parseSerialNumber_congr (snText_congr hlen h)⟩
  rw [parseMeasurements_of_length f hf, Option.isSome_some]

/-- Settles O52: a frame of 8 bytes or fewer has no text. -/
theorem shortSerialFramesAreEmptyAndOk : Obligations.ShortSerialFramesAreEmptyAndOk := by
  intro src s hlen
  have hparse : parseSerialNumber (selectedFrame src s.block.mem) = some [] := by
    rw [selectedFrame_eq_buf]
    exact parseSerialNumber_of_length_le hlen
  exact exec_parseSn_of_some hparse

end Sys2Proof.Proofs

/-! PROOFS. How operations end (60_exceptions.md R161, R162): `OVERFLOW` and `ILLEGAL_OP` leave all but `RES`, the write
of any command word leads to a next state, and the one access that is refused is that of two hosts (20_memory.md
R60). -/

namespace Sys2Proof.Machine

/-! ### The codes that leave all but `RES` (R162) -/

theorem OpEffect.eq_of_overflow_or_illegalOp {i : Instr} {b b' : Block} (h : OpEffect i b b')
    (hmeas : writesMeas i = false) (hsn : writesSn i = false) (hcode : b'.res = .overflow ∨ b'.res = .illegalOp) :
    b' = { b with res := b'.res } := by
  cases h with
  | res => rfl
  | inBuf | outBuf => simp at hcode
  | meas v mv c hw => simp [hmeas] at hw
  | sn bs sv c hw => simp [hsn] at hw

/-- An operation that ends with `OVERFLOW` or `ILLEGAL_OP` changes only `RES`: the parsers, which write a result
whatever the frame is, end with neither. -/
theorem block_of_exec_of_overflow_or_illegalOp {i : Instr} {s t : State} (h : exec i s = .next t)
    (hcode : t.block.res = .overflow ∨ t.block.res = .illegalOp) : t.block = { s.block with res := t.block.res } := by
  cases i with
  | parseMeas src => rcases exec_parseMeas_flag h with ⟨-, hres⟩ | ⟨-, hres, -⟩ <;> simp [hres] at hcode
  | parseSn src => rcases exec_parseSn_flag h with ⟨-, hres⟩ | ⟨-, hres⟩ <;> simp [hres] at hcode
  | nop | clear | push | build | destuff | stuff =>
    exact (opEffect_of_exec h).eq_of_overflow_or_illegalOp rfl rfl hcode

/-! ### Every command word leads to a next state (R161) -/

theorem issue_effect (w : CommandWord) (s : State) :
    ∃ b, issue w s = .next { s with block := b } ∧
      (b.res = .overflow ∨ b.res = .illegalOp → b = { s.block with res := b.res }) := by
  cases hd : decode w with
  | ok i =>
    obtain ⟨b, hb, -⟩ := exec_effect i s
    exact ⟨b, (issue_of_ok hd s).trans hb, block_of_exec_of_overflow_or_illegalOp hb⟩
  | error e => exact ⟨_, issue_of_error hd s, fun _ => rfl⟩

/-! ### Which steps are refused (R60) -/

theorem hostReadByte_ne_refused (sp : Space) (i : Nat) (s : State) (r : Refusal) :
    hostReadByte sp i s ≠ .refused r := by
  rcases Nat.lt_or_ge i (s.block.mem.buf sp).length with hi | hi
  · simp [hostReadByte_of_lt hi]
  · simp [hostReadByte_of_le hi]

theorem serve_write_ne_refused (n : Nat) (v : BitVec 16) (s : State) (r : Refusal) :
    serve (.write n v) s ≠ .refused r := by
  by_cases hn : n = cwNumber
  · obtain ⟨b, hb, -⟩ := issue_effect v s
    simp [serve, hn, hb]
  · simp [serve, hn, ignoredWrite]

theorem serve_eq_refused_iff {e : HostEvent} {s : State} {r : Refusal} :
    serve e s = .refused r ↔ r = .twoHosts ∧ e = .twoHosts := by
  cases e with
  | write n v => simp [serve_write_ne_refused]
  | readReg n => simp [serve, hostReadReg]
  | readByte sp i => simp [serve, hostReadByte_ne_refused]
  | reset => simp [serve, resetBlock]
  | twoHosts => simp [serve, eq_comm]

theorem step_eq_refused_iff {s : State} {r : Refusal} :
    step s = .refused r ↔ r = .twoHosts ∧ ∃ rest, s.pending = .twoHosts :: rest := by
  cases hpend : s.pending with
  | nil => simp [step_idle s hpend]
  | cons e rest => simp [step_serves s e rest hpend, serve_eq_refused_iff]

end Sys2Proof.Machine

/-! ### The obligations of 60_exceptions.md -/

namespace Sys2Proof.Proofs

open Sys2Proof Sys2Proof.Machine

/-- Settles O21: serving the write issues the word, which has a next state; no fault exists, and of all accesses only
two hosts at once are refused. -/
theorem everyCommandWordLeadsToANextState : Obligations.EveryCommandWordLeadsToANextState := by
  refine ⟨fun s rest w hpend => ?_, fun _ f => (nomatch f), fun _ _ => step_eq_refused_iff⟩
  obtain ⟨b, hb, hcode⟩ := issue_effect w { s with pending := rest }
  exact ⟨_, (step_write_cw hpend).trans hb, rfl, hcode⟩

end Sys2Proof.Proofs

/-! ### A reset between two operations (R170, R171) -/

namespace Sys2Proof.Machine

theorem serve_reset (s : State) : serve .reset s = .next { s with block := State.reset.block } := rfl

end Sys2Proof.Machine

/-! ### The obligations of 70_reset_and_hazards.md -/

namespace Sys2Proof.Proofs

open Sys2Proof Sys2Proof.Machine

/-- Settles O28: the step serves the reset, and serving it replaces the block alone. -/
theorem resetEventRestoresTheResetBlock : Obligations.ResetEventRestoresTheResetBlock := by
  intro s rest hpend
  calc step s = serve .reset { s with pending := rest } := step_serves s .reset rest hpend
    _ = .next { s with pending := rest, block := State.reset.block } := serve_reset _

end Sys2Proof.Proofs

/-! PROOFS. The invariant (10_state.md R34): it looks at no `RES`, each operation writes at most one component and keeps
that component's clause, and so every step keeps it and every reachable state meets it. -/

namespace Sys2Proof.Machine

/-! ### What a block that meets the invariant may be given -/

namespace Block.Inv

theorem at_reset : Block.reset.Inv where
  mem_wf := Block.reset_mem_wf
  sn_ascii := by simp
  m_zero := by simp
  sn_empty := by simp

variable {b : Block} (h : b.Inv) (c : ResultCode)
include h

theorem buf_length_le (sp : Space) : (b.mem.buf sp).length ≤ Memory.cap sp := b.mem.len_le_cap sp h.mem_wf

theorem with_res : Block.Inv { b with res := c } :=
  ⟨h.mem_wf, h.sn_ascii, h.m_zero, h.sn_empty⟩

theorem with_inBuf {bs : List Byte} (hlen : bs.length ≤ Config.bufCap) :
    Block.Inv { b with mem := { b.mem with inBuf := bs }, res := c } :=
  ⟨b.mem.setBuf_wf .inp bs h.mem_wf hlen, h.sn_ascii, h.m_zero, h.sn_empty⟩

theorem with_outBuf {bs : List Byte} (hlen : bs.length ≤ Config.bufCap) :
    Block.Inv { b with mem := { b.mem with outBuf := bs }, res := c } :=
  ⟨b.mem.setBuf_wf .out bs h.mem_wf hlen, h.sn_ascii, h.m_zero, h.sn_empty⟩

theorem with_meas {v : Vector Word32 10} {mv : Bool} (hzero : mv = false → ∀ k : Fin 10, v[k] = 0) :
    Block.Inv { b with m := v, mv := mv, res := c } :=
  ⟨h.mem_wf, h.sn_ascii, hzero, h.sn_empty⟩

theorem with_sn {bs : List Byte} {sv : Bool} (hlen : bs.length ≤ Config.snCap) (hascii : ∀ x ∈ bs, x.toNat < 0x80)
    (hempty : sv = false → bs.length = 0) :
    Block.Inv { b with mem := { b.mem with snBuf := bs }, sv := sv, res := c } :=
  ⟨b.mem.setBuf_wf .sn bs h.mem_wf hlen, hascii, h.m_zero, hempty⟩

end Block.Inv

/-! ### The text of a frame that fits in a buffer fits in `SN` (R29, R140) -/

theorem snText_length_le (f : List Byte) : (snText f).length ≤ f.length - 8 := by
  rw [snText_eq]
  split
  · exact Nat.zero_le _
  · exact List.length_take_le _ _

/-- What `parseSerialNumber` accepts is ASCII text from the frame. -/
theorem of_parseSerialNumber_eq_some {f text : List Byte} (h : parseSerialNumber f = some text) :
    text = snText f ∧ ∀ b ∈ text, b.toNat < 0x80 := by
  rw [parseSerialNumber, Option.ite_none_right_eq_some] at h
  obtain ⟨hascii, htext⟩ := h
  obtain rfl : snText f = text := Option.some.inj htext
  exact ⟨rfl, by simpa [isAscii] using hascii⟩

theorem Block.Inv.selectedFrame_length_le {b : Block} (h : b.Inv) (src : Source) :
    (selectedFrame src b.mem).length ≤ Config.bufCap := by
  rw [selectedFrame_eq_buf]
  cases src with
  | out => exact h.buf_length_le .out
  | inp => exact h.buf_length_le .inp

/-! ### Every operation, and every step, keeps the invariant -/

theorem exec_keeps_inv {i : Instr} {s t : State} (hinv : s.block.Inv) (h : exec i s = .next t) : t.block.Inv := by
  have hin : s.block.mem.inBuf.length ≤ Config.bufCap := hinv.buf_length_le .inp
  cases i with
  | nop =>
    cases h
    exact hinv.with_res .ok
  | clear =>
    cases h
    exact hinv.with_inBuf .ok (Nat.zero_le _)
  | push c =>
    by_cases hfull : s.block.mem.inBuf.length = Config.bufCap
    · cases (exec_push_of_full c hfull).symm.trans h
      exact hinv.with_res .overflow
    · cases (exec_push_of_room c hfull).symm.trans h
      refine hinv.with_inBuf .ok ?_
      rw [List.length_append, List.length_singleton]
      omega
  | build c =>
    cases (exec_build c s).symm.trans h
    exact hinv.with_outBuf .ok (Config.template c).fits
  | destuff =>
    cases (exec_destuff s).symm.trans h
    exact hinv.with_outBuf .ok ((destuff_length_le _).trans hin)
  | stuff =>
    by_cases hfits : (stuff s.block.mem.inBuf).length ≤ Config.bufCap
    · cases (exec_stuff_of_fits hfits).symm.trans h
      exact hinv.with_outBuf .ok hfits
    · cases (exec_stuff_of_overflow (Nat.lt_of_not_le hfits)).symm.trans h
      exact hinv.with_res .overflow
  | parseMeas src =>
    cases hp : parseMeasurements (selectedFrame src s.block.mem) with
    | some v =>
      cases (exec_parseMeas_of_some hp).symm.trans h
      exact hinv.with_meas .ok nofun
    | none =>
      cases (exec_parseMeas_of_none hp).symm.trans h
      exact hinv.with_meas .malformed fun _ k => Vector.getElem_replicate k.isLt
  | parseSn src =>
    cases hp : parseSerialNumber (selectedFrame src s.block.mem) with
    | some text =>
      cases (exec_parseSn_of_some hp).symm.trans h
      obtain ⟨rfl, hascii⟩ := of_parseSerialNumber_eq_some hp
      have hlen := snText_length_le (selectedFrame src s.block.mem)
      have hframe := hinv.selectedFrame_length_le src
      have hcap := snCap_add
      exact hinv.with_sn .ok (by omega) hascii nofun
    | none =>
      cases (exec_parseSn_of_none hp).symm.trans h
      exact hinv.with_sn .malformed (Nat.zero_le _) nofun fun _ => rfl

theorem step_keeps_inv {s t : State} (hinv : s.block.Inv) (h : step s = .next t) : t.block.Inv := by
  rcases step_cases h with ⟨-, rfl⟩ | ⟨e, rest, -, hserve⟩
  · exact hinv
  rcases serve_cases hserve with ⟨w, i, -, -, hexec⟩ | ⟨w, r, -, -, rfl⟩ | ⟨n, v, -, -, rfl⟩ | ⟨n, -, hread⟩ |
    ⟨sp, j, -, hread⟩ | ⟨-, rfl⟩
  · exact exec_keeps_inv (s := { s with pending := rest }) hinv hexec
  · exact hinv.with_res .illegalOp
  · exact hinv
  · rw [(hostReadReg_block hread).1]
    exact hinv
  · rw [(hostReadByte_block hread).1]
    exact hinv
  · exact Block.Inv.at_reset

theorem Reachable.inv {s : State} (h : Reachable s) : s.block.Inv := by
  induction h with
  | reset events => exact Block.Inv.at_reset
  | step s t _ hstep ih => exact step_keeps_inv ih hstep

end Sys2Proof.Machine

/-! ### The obligations of 10_state.md section 7 -/

namespace Sys2Proof.Proofs

open Sys2Proof Sys2Proof.Machine

/-- Settles O30: every length is 0 and `M` is zero. -/
theorem invariantHoldsAtReset : Obligations.InvariantHoldsAtReset := Block.Inv.at_reset

/-- Settles O31: `exec_keeps_inv` operation by operation; an illegal word writes `RES` alone, and a reset gives the reset
block. -/
theorem stepKeepsInvariant : Obligations.StepKeepsInvariant := fun _ _ => step_keeps_inv

/-- Settles O32: the clauses of the invariant, which holds at reset and which every step keeps. -/
theorem reachableStatesMeetInvariant : Obligations.ReachableStatesMeetInvariant := by
  intro s hreach
  obtain ⟨hmem, hascii, hzero, hempty⟩ := hreach.inv
  obtain ⟨hin, hout, hsn⟩ := s.block.mem.wf_iff.mp hmem
  refine ⟨hin, hout, hsn, hascii, ?_, hzero, hempty⟩
  cases s.block.res <;> decide

end Sys2Proof.Proofs

/-! PROOFS. The laws of the frame codec (30_encoding.md R70 to R77; 41_framecodec.md R115 to R122): the escape table in
both directions, `destuff` on whole sequences, the byte-serial machine, the four passes, and `stuff` with its inverse. -/

namespace Sys2Proof.Machine

/-! ### The escape table (R72) -/

theorem tab_eq_some_cases {y b : Byte} (h : tab y = some b) :
    (y = 0x5E ∧ b = 0x7E) ∨ (y = 0x5D ∧ b = 0x7D) ∨ (y = 0x31 ∧ b = 0x11) ∨ (y = 0x33 ∧ b = 0x13) := by
  by_cases hmem : y ∈ [(0x5E : Byte), 0x5D, 0x31, 0x33]
  · simp only [List.mem_cons, List.not_mem_nil, or_false] at hmem
    rcases hmem with rfl | rfl | rfl | rfl <;> cases h <;> decide
  · rw [tab_of_not_mem hmem] at h
    cases h

theorem stuffByte_of_not_mem {b : Byte} (h : b ∉ [(0x7E : Byte), 0x7D, 0x11, 0x13]) : stuffByte b = [b] := by
  simp only [List.mem_cons, List.not_mem_nil, or_false, not_or] at h
  obtain ⟨h7E, h7D, h11, h13⟩ := h
  rw [stuffByte, if_neg h7E, if_neg h7D, if_neg h11, if_neg h13]

/-- The table read from the content byte and from the second byte of its pair. -/
theorem tab_eq_some_iff {b y : Byte} : tab y = some b ↔ stuffByte b = [esc, y] := by
  constructor
  · intro h
    rcases tab_eq_some_cases h with ⟨rfl, rfl⟩ | ⟨rfl, rfl⟩ | ⟨rfl, rfl⟩ | ⟨rfl, rfl⟩ <;> rfl
  · intro h
    rcases stuffByte_cases b with ⟨hself, -⟩ | ⟨z, hpair, htab, -⟩
    · simp [hself] at h
    · obtain rfl : z = y := by simpa [hpair] using h
      exact htab

/-! ### `destuff` and escape pairs (R115) -/

theorem hasEscapePair_cons_cons {x y : Byte} {xs : List Byte} :
    HasEscapePair (x :: y :: xs) ↔ (x = esc ∧ ∃ v, tab y = some v) ∨ HasEscapePair (y :: xs) := by
  constructor
  · rintro ⟨i, z, v, hesc, hz, htab⟩
    cases i with
    | zero =>
      obtain rfl : y = z := by simpa using hz
      exact .inl ⟨by simpa using hesc, v, htab⟩
    | succ i => exact .inr ⟨i, z, v, hesc, hz, htab⟩
  · rintro (⟨rfl, v, htab⟩ | ⟨i, z, v, hesc, hz, htab⟩)
    · exact ⟨0, y, v, rfl, rfl, htab⟩
    · exact ⟨i + 1, z, v, hesc, hz, htab⟩

theorem not_hasEscapePair_of_length_le {xs : List Byte} (h : xs.length ≤ 1) : ¬ HasEscapePair xs := by
  rintro ⟨i, z, v, -, hz, -⟩
  rw [List.getElem?_eq_none (by omega)] at hz
  cases hz

/-- A byte that begins no pair is copied. -/
theorem destuff_cons_cons_of_no_pair {x y : Byte} (h : x = esc → tab y = none) (xs : List Byte) :
    destuff (x :: y :: xs) = x :: destuff (y :: xs) := by
  by_cases hx : x = esc
  · rw [hx, destuff_esc_of_tab_none (h hx)]
  · exact destuff_cons_of_ne hx _

/-- The induction along the pass of `destuff`: nothing, the last byte, a pair, a byte that begins no pair. -/
theorem destuff_induction {motive : List Byte → Prop} (nil : motive []) (single : ∀ x, motive [x])
    (pair : ∀ y v xs, tab y = some v → motive xs → motive (esc :: y :: xs))
    (copy : ∀ x y xs, (x = esc → tab y = none) → motive (y :: xs) → motive (x :: y :: xs)) (xs : List Byte) :
    motive xs := by
  induction xs using destuff.induct with
  | case1 => exact nil
  | case2 x => exact single x
  | case3 x y xs v hguard ih =>
    obtain ⟨rfl, htab⟩ := Option.ite_none_right_eq_some.mp hguard
    exact pair y v xs htab ih
  | case4 x y xs hguard ih => exact copy x y xs (fun hx => by rwa [if_pos hx] at hguard) ih

/-- R115 law 2: with no pair there is nothing to replace. -/
theorem destuff_eq_self {xs : List Byte} (h : ¬ HasEscapePair xs) : destuff xs = xs := by
  induction xs using destuff_induction with
  | nil => rfl
  | single x => rfl
  | pair y v xs htab ih => exact absurd (hasEscapePair_cons_cons.mpr (.inl ⟨rfl, v, htab⟩)) h
  | copy x y xs hno ih =>
    rw [destuff_cons_cons_of_no_pair hno, ih fun hpair => h (hasEscapePair_cons_cons.mpr (.inr hpair))]

/-- The pass replaces at least one pair when there is one: the first that it meets. -/
theorem destuff_length_lt {xs : List Byte} (h : HasEscapePair xs) : (destuff xs).length < xs.length := by
  induction xs using destuff_induction with
  | nil => exact absurd h (not_hasEscapePair_of_length_le (by decide))
  | single x => exact absurd h (not_hasEscapePair_of_length_le (Nat.le_refl 1))
  | pair y v xs htab ih =>
    rw [destuff_pair htab]
    exact Nat.succ_lt_succ (Nat.lt_succ_of_le (destuff_length_le xs))
  | copy x y xs hno ih =>
    rw [destuff_cons_cons_of_no_pair hno]
    rcases hasEscapePair_cons_cons.mp h with ⟨hx, v, htab⟩ | hpair
    · simp [hno hx] at htab
    · exact Nat.succ_lt_succ (ih hpair)

/-- The cut between `a` and `b` falls inside an escape pair. -/
def CutsPair (a b : List Byte) : Prop := a.getLast? = some esc ∧ ∃ y v, b.head? = some y ∧ tab y = some v

/-- A longer first part that ends in the same bytes is cut in the same place. -/
theorem CutsPair.cons {a b : List Byte} (h : CutsPair a b) (x : Byte) : CutsPair (x :: a) b := by
  obtain ⟨hlast, hhead⟩ := h
  exact ⟨by simp [List.getLast?_cons, hlast], hhead⟩

/-- R115 law 3. -/
theorem destuff_append {a b : List Byte} (h : ¬ CutsPair a b) : destuff (a ++ b) = destuff a ++ destuff b := by
  induction a using destuff_induction with
  | nil => rfl
  | single x =>
    cases b with
    | nil => rfl
    | cons y ys =>
      refine destuff_cons_cons_of_no_pair (fun hx => ?_) ys
      subst hx
      exact Option.eq_none_iff_forall_ne_some.mpr fun v htab => h ⟨rfl, y, v, rfl, htab⟩
  | pair y v xs htab ih =>
    rw [List.cons_append, List.cons_append, destuff_pair htab, destuff_pair htab,
      ih fun hcut => h ((hcut.cons y).cons esc), List.cons_append]
  | copy x y xs hno ih =>
    rw [List.cons_append, List.cons_append, destuff_cons_cons_of_no_pair hno, destuff_cons_cons_of_no_pair hno,
      ← List.cons_append, ih fun hcut => h (hcut.cons x), List.cons_append]

/-! ### Where each output byte comes from (R115 law 4) -/

/-- A piece of the input with the output byte it gives: the byte itself, or an escape pair and what `tab` makes of it. -/
def IsPiece (p : List Byte × Byte) : Prop := p.1 = [p.2] ∨ ∃ y, p.1 = [esc, y] ∧ tab y = some p.2

theorem exists_pieces (xs : List Byte) : ∃ pieces : List (List Byte × Byte),
    xs = pieces.flatMap Prod.fst ∧ destuff xs = pieces.map Prod.snd ∧ ∀ p ∈ pieces, IsPiece p := by
  induction xs using destuff_induction with
  | nil => exact ⟨[], rfl, rfl, nofun⟩
  | single x => exact ⟨[([x], x)], rfl, rfl, by simp [IsPiece]⟩
  | pair y v xs htab ih =>
    obtain ⟨pieces, hin, hout, hpieces⟩ := ih
    refine ⟨([esc, y], v) :: pieces, congrArg ([esc, y] ++ ·) hin, ?_,
      List.forall_mem_cons.mpr ⟨.inr ⟨y, rfl, htab⟩, hpieces⟩⟩
    rw [destuff_pair htab, hout, List.map_cons]
  | copy x y xs hno ih =>
    obtain ⟨pieces, hin, hout, hpieces⟩ := ih
    refine ⟨([x], x) :: pieces, congrArg ([x] ++ ·) hin, ?_, List.forall_mem_cons.mpr ⟨.inl rfl, hpieces⟩⟩
    rw [destuff_cons_cons_of_no_pair hno, hout, List.map_cons]

/-! ### The byte-serial machine (R118) -/

theorem serialStep_false_of_ne {b : Byte} (h : b ≠ esc) : serialStep false b = ([b], false) := if_neg h

theorem serialStep_false_esc : serialStep false esc = ([], true) := rfl

theorem serialStep_true_of_tab {b v : Byte} (h : tab b = some v) : serialStep true b = ([v], false) := by
  rw [serialStep, if_pos rfl, h]

theorem serialStep_true_esc : serialStep true esc = ([esc], true) := rfl

theorem serialStep_true_of_tab_none {b : Byte} (htab : tab b = none) (hne : b ≠ esc) :
    serialStep true b = ([esc, b], false) := by
  rw [serialStep, if_pos rfl, htab]
  exact if_neg hne

/-- The bytes a machine in the given state has read and not yet answered. -/
def heldBytes (held : Bool) : List Byte := if held then [esc] else []

/-- From either state the machine emits `destuff` of the byte it holds and the input. -/
theorem serialDestuff_eq (held : Bool) (xs : List Byte) : serialDestuff held xs = destuff (heldBytes held ++ xs) := by
  induction xs generalizing held with
  | nil => cases held <;> rfl
  | cons b xs ih =>
    rw [serialDestuff, ih]
    cases held with
    | false =>
      by_cases hb : b = esc
      · subst hb
        rfl
      · rw [serialStep_false_of_ne hb]
        exact (destuff_cons_of_ne hb xs).symm
    | true =>
      cases htab : tab b with
      | some v =>
        rw [serialStep_true_of_tab htab]
        exact (destuff_pair htab xs).symm
      | none =>
        have hpass : destuff (esc :: b :: xs) = esc :: destuff (b :: xs) := destuff_esc_of_tab_none htab xs
        by_cases hb : b = esc
        · subst hb
          exact hpass.symm
        · rw [serialStep_true_of_tab_none htab hb]
          exact (hpass.trans (congrArg (esc :: ·) (destuff_cons_of_ne hb xs))).symm

/-! ### Four successive passes (R119) -/

section ReplacePair
variable {y v : Byte} {xs : List Byte}

theorem replacePair_cons_of_ne {x : Byte} (h : x ≠ esc) : replacePair y v (x :: xs) = x :: replacePair y v xs := by
  cases xs with
  | nil => rfl
  | cons z zs => exact if_neg fun hpair => h hpair.1

theorem replacePair_pair : replacePair y v (esc :: y :: xs) = v :: replacePair y v xs := if_pos ⟨rfl, rfl⟩

theorem replacePair_esc (h : xs.head? ≠ some y) : replacePair y v (esc :: xs) = esc :: replacePair y v xs := by
  cases xs with
  | nil => rfl
  | cons z zs => exact if_neg fun hpair => h (congrArg some hpair.2)

/-- A pass that looks for another second byte copies the pair. -/
theorem replacePair_other_pair {z : Byte} (hz : z ≠ y) (hesc : z ≠ esc) :
    replacePair y v (esc :: z :: xs) = esc :: z :: replacePair y v xs := by
  have hhead : (z :: xs).head? ≠ some y := fun h => hz (Option.some.inj h)
  rw [replacePair_esc hhead, replacePair_cons_of_ne hesc]

/-- A pass brings no byte to the front but the one it writes. -/
theorem head?_replacePair_ne {z : Byte} (hv : v ≠ z) (h : xs.head? ≠ some z) :
    (replacePair y v xs).head? ≠ some z := by
  cases xs using replacePair.fun_cases y with
  | case1 => exact h
  | case2 x => exact h
  | case3 x w zs hpair => simpa [replacePair, hpair] using hv
  | case4 x w zs hno => simpa [replacePair, hno] using h

end ReplacePair

theorem destuffFourPass_cons_of_ne {x : Byte} (h : x ≠ esc) (xs : List Byte) :
    destuffFourPass (x :: xs) = x :: destuffFourPass xs := by
  simp only [destuffFourPass, replacePair_cons_of_ne h]

/-- Before a byte outside the table no pass finds a pair, and none puts a byte of the table there. -/
theorem destuffFourPass_esc {xs : List Byte} (h : ∀ y v, tab y = some v → xs.head? ≠ some y) :
    destuffFourPass (esc :: xs) = esc :: destuffFourPass xs := by
  have h5D := head?_replacePair_ne (y := 0x5E) (v := 0x7E) (by decide) (h 0x5D _ rfl)
  have h31 := head?_replacePair_ne (y := 0x5D) (v := 0x7D) (by decide)
    (head?_replacePair_ne (y := 0x5E) (v := 0x7E) (by decide) (h 0x31 _ rfl))
  have h33 := head?_replacePair_ne (y := 0x31) (v := 0x11) (by decide)
    (head?_replacePair_ne (y := 0x5D) (v := 0x7D) (by decide)
      (head?_replacePair_ne (y := 0x5E) (v := 0x7E) (by decide) (h 0x33 _ rfl)))
  simp only [destuffFourPass]
  rw [replacePair_esc (h 0x5E _ rfl), replacePair_esc h5D, replacePair_esc h31, replacePair_esc h33]

/-- The four passes agree with `tab` on a pair that does not give an escape byte: the passes before its own copy it, and
those after it see no escape byte. -/
theorem destuffFourPass_pair {y v : Byte} (h : tab y = some v) (hne : y ≠ 0x5D) (xs : List Byte) :
    destuffFourPass (esc :: y :: xs) = v :: destuffFourPass xs := by
  simp only [destuffFourPass]
  rcases tab_eq_some_cases h with ⟨rfl, rfl⟩ | ⟨rfl, -⟩ | ⟨rfl, rfl⟩ | ⟨rfl, rfl⟩
  · rw [replacePair_pair, replacePair_cons_of_ne (by decide), replacePair_cons_of_ne (by decide),
      replacePair_cons_of_ne (by decide)]
  · exact absurd rfl hne
  · rw [replacePair_other_pair (by decide) (by decide), replacePair_other_pair (by decide) (by decide),
      replacePair_pair, replacePair_cons_of_ne (by decide)]
  · rw [replacePair_other_pair (by decide) (by decide), replacePair_other_pair (by decide) (by decide),
      replacePair_other_pair (by decide) (by decide), replacePair_pair]

/-- An escaped 0x7D stays when the third and the fourth pass find no byte of theirs behind it. -/
theorem destuffFourPass_escaped_esc {xs : List Byte} (h31 : xs.head? ≠ some 0x31) (h33 : xs.head? ≠ some 0x33) :
    destuffFourPass (esc :: 0x5D :: xs) = esc :: destuffFourPass xs := by
  have hthird := head?_replacePair_ne (y := 0x5D) (v := 0x7D) (by decide)
    (head?_replacePair_ne (y := 0x5E) (v := 0x7E) (by decide) h31)
  have hfourth := head?_replacePair_ne (y := 0x31) (v := 0x11) (by decide)
    (head?_replacePair_ne (y := 0x5D) (v := 0x7D) (by decide)
      (head?_replacePair_ne (y := 0x5E) (v := 0x7E) (by decide) h33))
  simp only [destuffFourPass]
  rw [replacePair_other_pair (by decide) (by decide), replacePair_pair]
  exact (congrArg _ (replacePair_esc hthird)).trans (replacePair_esc hfourth)

/-- Otherwise the 0x7D that the second pass wrote is taken for the first byte of a pair. -/
theorem destuffFourPass_rescan {xs : List Byte} (h : xs.head? = some 0x31 ∨ xs.head? = some 0x33) :
    ∃ v ys, v ≠ esc ∧ destuffFourPass (esc :: 0x5D :: xs) = v :: ys := by
  have htwo {z : Byte} (hz : z ≠ esc) (zs : List Byte) :
      replacePair 0x5D 0x7D (replacePair 0x5E 0x7E (esc :: 0x5D :: z :: zs)) =
        esc :: z :: replacePair 0x5D 0x7D (replacePair 0x5E 0x7E zs) := by
    rw [replacePair_other_pair (by decide) (by decide), replacePair_cons_of_ne hz, replacePair_pair,
      replacePair_cons_of_ne hz]
    rfl
  rcases h with h | h
  · obtain ⟨zs, rfl⟩ := List.head?_eq_some_iff.mp h
    refine ⟨0x11, destuffFourPass zs, by decide, ?_⟩
    simp only [destuffFourPass]
    rw [htwo (by decide), replacePair_pair, replacePair_cons_of_ne (by decide)]
  · obtain ⟨zs, rfl⟩ := List.head?_eq_some_iff.mp h
    refine ⟨0x13, destuffFourPass zs, by decide, ?_⟩
    simp only [destuffFourPass]
    rw [htwo (by decide), replacePair_other_pair (by decide) (by decide), replacePair_pair]

/-- Behind an escape byte, what makes the four passes read their own output again. -/
def StartsRescan (xs : List Byte) : Prop := [0x5D, 0x31] <+: xs ∨ [0x5D, 0x33] <+: xs

/-- The inputs of R119 on which the four passes are no `destuff`. -/
def HasRescan (xs : List Byte) : Prop := [0x7D, 0x5D, 0x31] <:+: xs ∨ [0x7D, 0x5D, 0x33] <:+: xs

theorem startsRescan_cons {y : Byte} {xs : List Byte} :
    StartsRescan (y :: xs) ↔ y = 0x5D ∧ (xs.head? = some 0x31 ∨ xs.head? = some 0x33) := by
  rw [StartsRescan, List.cons_prefix_cons, List.cons_prefix_cons, List.singleton_prefix_iff_head?_eq_some,
    List.singleton_prefix_iff_head?_eq_some, ← and_or_left, eq_comm]

theorem hasRescan_cons {x : Byte} {xs : List Byte} :
    HasRescan (x :: xs) ↔ (x = esc ∧ StartsRescan xs) ∨ HasRescan xs := by
  simp only [HasRescan, StartsRescan, List.infix_cons_iff, List.cons_prefix_cons, esc]
  tauto

theorem not_hasRescan_of_length_le {xs : List Byte} (h : xs.length ≤ 2) : ¬ HasRescan xs := by
  rintro (hin | hin)
  · exact absurd (hin.length_le.trans h) (by simp)
  · exact absurd (hin.length_le.trans h) (by simp)

/-- R119: up to the first escaped 0x7D before 0x31 or 0x33 both give the same bytes; there one gives 0x7D and the other
does not. -/
theorem destuffFourPass_eq_iff (xs : List Byte) : destuffFourPass xs = destuff xs ↔ ¬ HasRescan xs := by
  induction xs using destuff_induction with
  | nil => exact iff_of_true rfl (not_hasRescan_of_length_le (by decide))
  | single x => exact iff_of_true rfl (not_hasRescan_of_length_le (Nat.le_succ 1))
  | pair y v xs htab ih =>
    have hy : y ≠ esc := by rintro rfl; simp at htab
    rw [destuff_pair htab, hasRescan_cons, hasRescan_cons]
    by_cases hstart : StartsRescan (y :: xs)
    · obtain ⟨rfl, hhead⟩ := startsRescan_cons.mp hstart
      obtain rfl : esc = v := Option.some.inj htab
      obtain ⟨w, ys, hw, hfour⟩ := destuffFourPass_rescan hhead
      refine iff_of_false (fun heq => hw ?_) (not_not.mpr (.inl ⟨rfl, hstart⟩))
      exact List.head_eq_of_cons_eq (hfour.symm.trans heq)
    · have hfour : destuffFourPass (esc :: y :: xs) = v :: destuffFourPass xs := by
        by_cases hne : y = 0x5D
        · subst hne
          obtain rfl : esc = v := Option.some.inj htab
          have hhead : ¬ (xs.head? = some 0x31 ∨ xs.head? = some 0x33) :=
            fun hhead => hstart (startsRescan_cons.mpr ⟨rfl, hhead⟩)
          exact destuffFourPass_escaped_esc (fun h => hhead (.inl h)) (fun h => hhead (.inr h))
        · exact destuffFourPass_pair htab hne xs
      simp [hfour, hstart, hy, ih]
  | copy x y xs hno ih =>
    have hfour : destuffFourPass (x :: y :: xs) = x :: destuffFourPass (y :: xs) := by
      by_cases hx : x = esc
      · subst hx
        refine destuffFourPass_esc fun z v htab hz => ?_
        obtain rfl : y = z := Option.some.inj hz
        rw [hno rfl] at htab
        cases htab
      · exact destuffFourPass_cons_of_ne hx _
    have hstart : ¬ (x = esc ∧ StartsRescan (y :: xs)) := by
      rintro ⟨hx, hstart⟩
      obtain ⟨rfl, -⟩ := startsRescan_cons.mp hstart
      cases hno hx
    rw [destuff_cons_cons_of_no_pair hno, hfour, hasRescan_cons]
    simp [hstart, ih]

/-! ### What stands in a stuffed sequence (R71, R122 law 2) -/

theorem mem_stuffByte_ne {b c : Byte} (h : b ∈ stuffByte c) : b ≠ 0x7E ∧ b ≠ 0x11 ∧ b ≠ 0x13 := by
  by_cases hc : c ∈ [(0x7E : Byte), 0x7D, 0x11, 0x13]
  · have hentries : ∀ c ∈ [(0x7E : Byte), 0x7D, 0x11, 0x13], ∀ b ∈ stuffByte c, b ≠ 0x7E ∧ b ≠ 0x11 ∧ b ≠ 0x13 := by
      decide
    exact hentries c hc b h
  · rw [stuffByte_of_not_mem hc, List.mem_singleton] at h
    subst h
    simp only [List.mem_cons, List.not_mem_nil, or_false, not_or] at hc
    obtain ⟨h7E, -, h11, h13⟩ := hc
    exact ⟨h7E, h11, h13⟩

theorem mem_stuff_ne {b : Byte} {xs : List Byte} (h : b ∈ stuff xs) : b ≠ 0x7E ∧ b ≠ 0x11 ∧ b ≠ 0x13 := by
  obtain ⟨c, -, hc⟩ := List.mem_flatMap.mp h
  exact mem_stuffByte_ne hc

/-- An escape byte stands in a stuffed sequence only as the first byte of a pair. -/
theorem stuff_esc_followed {xs : List Byte} {i : Nat} (h : (stuff xs)[i]? = some esc) :
    ∃ y v, (stuff xs)[i + 1]? = some y ∧ tab y = some v := by
  induction xs generalizing i with
  | nil => cases h
  | cons c xs ih =>
    rcases stuffByte_cases c with ⟨hself, hne⟩ | ⟨y, hpair, htab, hne⟩
    · rw [stuff_cons, hself] at h ⊢
      cases i with
      | zero => exact absurd (Option.some.inj h) hne
      | succ i => exact ih h
    · rw [stuff_cons, hpair] at h ⊢
      match i with
      | 0 => exact ⟨y, c, rfl, htab⟩
      | 1 => exact absurd (Option.some.inj h) hne
      | i + 2 => exact ih h

/-- R71: the delimiters of a wire frame are its first and its last byte. -/
theorem wireFrame_getElem?_eq_delim_iff (c : List Byte) (i : Nat) :
    (wireFrame c)[i]? = some delim ↔ i = 0 ∨ i + 1 = (wireFrame c).length := by
  have hlen : (wireFrame c).length = (stuff c).length + 2 := by simp [wireFrame]
  cases i with
  | zero => simp [wireFrame]
  | succ j =>
    have hshift : (wireFrame c)[j + 1]? = (stuff c ++ [delim])[j]? := rfl
    rw [hshift, hlen]
    rcases Nat.lt_trichotomy j (stuff c).length with hlt | rfl | hgt
    · have hinner : (stuff c)[j]? ≠ some delim := fun h => (mem_stuff_ne (List.mem_of_getElem? h)).1 rfl
      rw [List.getElem?_append_left hlt]
      exact iff_of_false hinner (by omega)
    · rw [List.getElem?_concat_length]
      exact iff_of_true rfl (.inr rfl)
    · rw [List.getElem?_eq_none (by simpa using hgt)]
      exact iff_of_false nofun (by omega)

/-! ### `destuff` inverts `stuff` (R122 laws 1 and 4) -/

theorem destuff_stuff (xs : List Byte) : destuff (stuff xs) = xs := by
  have h := destuff_stuff_append xs []
  rwa [List.append_nil, destuff_nil, List.append_nil] at h

theorem stuff_destuff_eq_self_iff {ys : List Byte} : stuff (destuff ys) = ys ↔ ∃ xs, ys = stuff xs := by
  constructor
  · intro h
    exact ⟨destuff ys, h.symm⟩
  · rintro ⟨xs, rfl⟩
    rw [destuff_stuff]

end Sys2Proof.Machine

/-! ### The obligations about the laws of the frame codec -/

namespace Sys2Proof.Proofs

open Sys2Proof Sys2Proof.Machine

/-- Settles O34: the four entries, and both directions of the table as one equation. -/
theorem escapeTableHasFourEntries : Obligations.EscapeTableHasFourEntries := by
  refine ⟨rfl, rfl, rfl, rfl, fun b => stuffByte_of_not_mem, fun b y => tab_eq_some_iff, fun b y h => ?_⟩
  rcases tab_eq_some_cases h with ⟨rfl, rfl⟩ | ⟨rfl, rfl⟩ | ⟨rfl, rfl⟩ | ⟨rfl, rfl⟩ <;> rfl

/-- Settles O36: without a pair `destuff` changes nothing, and with one its output is shorter. -/
theorem destuffNeverLengthens : Obligations.DestuffNeverLengthens := by
  refine fun x => ⟨destuff_length_le x, fun hlen hpair => ?_, fun hclean => ?_⟩
  · exact (destuff_length_lt hpair).ne hlen
  · rw [destuff_eq_self hclean]

/-- Settles O37: `destuff_eq_self`, along the pass of `destuff`. -/
theorem destuffKeepsCleanInput : Obligations.DestuffKeepsCleanInput := by
  intro x hclean
  have hself := destuff_eq_self hclean
  exact ⟨hself, congrArg destuff hself⟩

/-- Settles O38: `destuff_append`, along the pass over the first part. -/
theorem destuffOfAConcatenation : Obligations.DestuffOfAConcatenation := fun _ _ => destuff_append

/-- Settles O39: `exists_pieces`, one piece for each step of the pass. -/
theorem destuffOutputComesFromItsInput : Obligations.DestuffOutputComesFromItsInput := exists_pieces

/-- Settles O40: sixteen closed inputs, destuffed by evaluation. -/
theorem destuffCornerCases : Obligations.DestuffCornerCases := by
  unfold Obligations.DestuffCornerCases
  decide

/-- Settles O41: the output of the escaped 0x7D stands before a byte of the table. -/
theorem destuffIsNotIdempotent : Obligations.DestuffIsNotIdempotent := by
  refine ⟨rfl, rfl, fun hidem => ?_⟩
  exact absurd (hidem [0x7D, 0x5D, 0x5E]) (by decide)

/-- Settles O42: the five rows, and `serialDestuff_eq` from the state that holds no byte. -/
theorem byteSerialDestufferRefinesDestuff : Obligations.ByteSerialDestufferRefinesDestuff :=
  ⟨fun _ => serialStep_false_of_ne, serialStep_false_esc, fun _ _ => serialStep_true_of_tab, serialStep_true_esc,
    fun _ => serialStep_true_of_tab_none, serialDestuff_eq false⟩

/-- Settles O43: `destuffFourPass_eq_iff`, along the pass of `destuff`. -/
theorem fourPassesDifferExactlyThere : Obligations.FourPassesDifferExactlyThere :=
  ⟨rfl, rfl, rfl, rfl, fun x => not_iff_comm.mp (destuffFourPass_eq_iff x).symm⟩

/-- Settles O45: each stuffed byte is undone in its turn. -/
theorem destuffInvertsStuff : Obligations.DestuffInvertsStuff := destuff_stuff

/-- Settles O46: what one stuffed byte may be, and the delimiters outside the stuffed part. -/
theorem stuffedBytesAndDelimiters : Obligations.StuffedBytesAndDelimiters :=
  ⟨fun _ _ => mem_stuff_ne, fun _ _ => stuff_esc_followed, wireFrame_getElem?_eq_delim_iff⟩

/-- Settles O47: `destuff_wireFrame`. -/
theorem destuffOfAWireFrame : Obligations.DestuffOfAWireFrame := destuff_wireFrame

/-- Settles O48: the image of `stuff` is where `destuff` loses nothing. -/
theorem stuffInvertsDestuffOnItsImageOnly : Obligations.StuffInvertsDestuffOnItsImageOnly :=
  ⟨rfl, fun _ => stuff_destuff_eq_self_iff⟩

end Sys2Proof.Proofs

/-! PROOFS. The result codes of the operations (60_exceptions.md R152), parses of an empty buffer (70_reset_and_hazards.md
R172), the round trip of a measurement frame (42_responseparser.md R136), and operations issued twice (20_memory.md R58). -/

namespace Sys2Proof.Machine

/-! ### How the parsers end (R152) -/

/-- A text byte that is not ASCII, by its index in the frame. -/
theorem exists_snText_ge_iff {f : List Byte} :
    (∃ b ∈ snText f, 0x80 ≤ b.toNat) ↔
      ∃ (i : Nat) (b : Byte), 5 ≤ i ∧ i + 4 ≤ f.length ∧ f[i]? = some b ∧ 0x80 ≤ b.toNat := by
  constructor
  · rintro ⟨b, hmem, hb⟩
    obtain ⟨j, hj⟩ := List.mem_iff_getElem?.mp hmem
    rw [getElem?_snText, Option.ite_none_right_eq_some] at hj
    obtain ⟨hlen, hbyte⟩ := hj
    exact ⟨j + 5, b, by omega, by omega, hbyte, hb⟩
  · rintro ⟨i, b, hlow, hhigh, hbyte, hb⟩
    refine ⟨b, List.mem_of_getElem? (i := i - 5) ?_, hb⟩
    rw [getElem?_snText, if_pos (by omega), Nat.sub_add_cancel hlow, hbyte]

theorem parseSerialNumber_eq_none_iff {f : List Byte} :
    parseSerialNumber f = none ↔ ∃ b ∈ snText f, 0x80 ≤ b.toNat := by
  constructor
  · intro hnone
    by_contra hall
    push Not at hall
    rw [parseSerialNumber_of_ascii f hall] at hnone
    cases hnone
  · exact parseSerialNumber_of_not_ascii f

theorem exec_parseSn_res (src : Source) (s : State) : ∃ t, exec (.parseSn src) s = .next t ∧
    (t.block.res = .malformed ↔ parseSerialNumber (s.block.mem.buf src.space) = none) ∧
    (t.block.res = .ok ∨ t.block.res = .malformed) := by
  rw [← selectedFrame_eq_buf]
  cases hp : parseSerialNumber (selectedFrame src s.block.mem) with
  | some text => exact ⟨_, exec_parseSn_of_some hp, by simp, .inl rfl⟩
  | none => exact ⟨_, exec_parseSn_of_none hp, by simp, .inr rfl⟩

theorem exec_parseMeas_res (src : Source) (s : State) : ∃ t, exec (.parseMeas src) s = .next t ∧
    t.block.res = if s.block.mem.len src.space = 47 then .ok else .malformed := by
  have hframe : (selectedFrame src s.block.mem).length = s.block.mem.len src.space :=
    congrArg List.length (selectedFrame_eq_buf src s.block.mem)
  by_cases hlen : s.block.mem.len src.space = 47
  · rw [if_pos hlen]
    exact ⟨_, exec_parseMeas_of_some (parseMeasurements_of_length _ (hframe.trans hlen)), rfl⟩
  · rw [if_neg hlen]
    exact ⟨_, exec_parseMeas_of_none (parseMeasurements_of_ne _ (hframe ▸ hlen)), rfl⟩

theorem exec_push_res (b : Byte) (s : State) : ∃ t, exec (.push b) s = .next t ∧
    t.block.res = if s.block.mem.len .inp = Config.bufCap then .overflow else .ok := by
  by_cases hfull : s.block.mem.len .inp = Config.bufCap
  · exact ⟨_, exec_push_of_full b hfull, (if_pos hfull).symm⟩
  · exact ⟨_, exec_push_of_room b hfull, (if_neg hfull).symm⟩

theorem exec_stuff_res (s : State) : ∃ t, exec .stuff s = .next t ∧
    t.block.res = if (stuff s.block.mem.inBuf).length > Config.bufCap then .overflow else .ok := by
  by_cases hlong : (stuff s.block.mem.inBuf).length > Config.bufCap
  · exact ⟨_, exec_stuff_of_overflow hlong, (if_pos hlong).symm⟩
  · exact ⟨_, exec_stuff_of_fits (Nat.le_of_not_lt hlong), (if_neg hlong).symm⟩

/-! ### Both buffers are empty at reset (R172) -/

theorem selectedFrame_reset (src : Source) : selectedFrame src State.reset.block.mem = [] := by
  cases src <;> rfl

/-! ### An operation other than PUSH, issued again (R58) -/

/-- No operation but PUSH reads what it writes, so from the state it leaves it writes the same. -/
theorem exec_again {i : Instr} {s t : State} (hpush : ∀ b, i ≠ .push b) (h : exec i s = .next t) :
    exec i t = .next t := by
  cases i with
  | nop =>
    cases h
    rfl
  | clear =>
    cases h
    rfl
  | push b => exact absurd rfl (hpush b)
  | build c =>
    cases (exec_build c s).symm.trans h
    exact exec_build c _
  | destuff =>
    cases (exec_destuff s).symm.trans h
    exact exec_destuff _
  | stuff =>
    by_cases hfits : (stuff s.block.mem.inBuf).length ≤ Config.bufCap
    · cases (exec_stuff_of_fits hfits).symm.trans h
      exact exec_stuff_of_fits hfits
    · cases (exec_stuff_of_overflow (Nat.lt_of_not_le hfits)).symm.trans h
      exact exec_stuff_of_overflow (Nat.lt_of_not_le hfits)
  | parseMeas src =>
    cases hp : parseMeasurements (selectedFrame src s.block.mem) with
    | some v =>
      cases (exec_parseMeas_of_some hp).symm.trans h
      exact exec_parseMeas_of_some hp
    | none =>
      cases (exec_parseMeas_of_none hp).symm.trans h
      exact exec_parseMeas_of_none hp
  | parseSn src =>
    have hsame (bs : List Byte) :
        selectedFrame src { s.block.mem with snBuf := bs } = selectedFrame src s.block.mem := by cases src <;> rfl
    cases hp : parseSerialNumber (selectedFrame src s.block.mem) with
    | some text =>
      cases (exec_parseSn_of_some hp).symm.trans h
      exact exec_parseSn_of_some ((congrArg parseSerialNumber (hsame text)).trans hp)
    | none =>
      cases (exec_parseSn_of_none hp).symm.trans h
      exact exec_parseSn_of_none ((congrArg parseSerialNumber (hsame [])).trans hp)

theorem inBuf_of_exec_push_of_room {b : Byte} {s t : State} (hroom : s.block.mem.inBuf.length ≠ Config.bufCap)
    (h : exec (.push b) s = .next t) : t.block.mem.inBuf = s.block.mem.inBuf ++ [b] := by
  cases (exec_push_of_room b hroom).symm.trans h
  rfl

end Sys2Proof.Machine

/-! ### The obligations about result codes, reset, round trip and repetition -/

namespace Sys2Proof.Proofs

open Sys2Proof Sys2Proof.Machine

/-- Settles O20: the table row by row; PARSE_SN fails exactly on a text byte that is not ASCII. -/
theorem operationsEndWithTheCodesOfTheTable : Obligations.OperationsEndWithTheCodesOfTheTable := by
  intro s
  refine ⟨⟨_, exec_nop s, rfl⟩, ⟨_, exec_clear s, rfl⟩, fun b => exec_push_res b s, fun c => ⟨_, exec_build c s, rfl⟩,
    ⟨_, exec_destuff s, rfl⟩, exec_stuff_res s, fun src => exec_parseMeas_res src s, fun src => ?_,
    fun w e hd => ⟨_, issue_of_error hd s, rfl⟩⟩
  obtain ⟨t, ht, hmal, hcodes⟩ := exec_parseSn_res src s
  exact ⟨t, ht, hmal.trans (parseSerialNumber_eq_none_iff.trans exists_snText_ge_iff), hcodes⟩

/-- Settles O29: an empty frame is not 47 bytes long, and has an empty text. -/
theorem firstParsesAfterReset : Obligations.FirstParsesAfterReset := by
  intro src
  have hempty := selectedFrame_reset src
  have hmeas := parseMeasurements_of_ne [] (by decide)
  have hsn : parseSerialNumber [] = some [] := parseSerialNumber_of_length_le (Nat.zero_le 8)
  rw [← hempty] at hmeas
  exact ⟨⟨_, exec_parseMeas_of_none hmeas, rfl, rfl⟩,
    ⟨_, exec_parseSn_of_some ((congrArg parseSerialNumber hempty).trans hsn), rfl, rfl, rfl⟩⟩

/-- Settles O49: the parser gives the words back, and LOAD puts the frame, which fits, into `IN`. -/
theorem measurementRoundTrip : Obligations.MeasurementRoundTrip := by
  intro v hdr trl hhdr htrl
  have hparse := parseMeasurements_measFrame v hhdr htrl
  refine ⟨hparse, fun s => ?_⟩
  have hlen : (measFrame hdr v trl).length = 47 := by rw [measFrame_length, hhdr, htrl]
  have hfit : (measFrame hdr v trl).length ≤ Config.bufCap := by
    have := bufCap_range
    omega
  have hrun := run_load_then s hfit [.parseMeas .inp] 1
  rw [hlen, run_one, step_encode rfl,
    exec_parseMeas_of_some ((congrArg parseMeasurements (selectedFrame_inp _)).trans hparse)] at hrun
  exact ⟨_, hrun, rfl, rfl, rfl, rfl⟩

/-- Settles O53: `exec_again`, and a PUSH that finds room appends its byte each time. -/
theorem repeatingAnOperationChangesNothing : Obligations.RepeatingAnOperationChangesNothing := by
  refine ⟨fun i s t => exec_again, fun b s t u hroom ht hu => ?_⟩
  have hlen : s.block.mem.inBuf.length + 1 < Config.bufCap := hroom
  have hfirst := inBuf_of_exec_push_of_room (by omega) ht
  have hsecond := inBuf_of_exec_push_of_room (by rw [hfirst, List.length_append, List.length_singleton]; omega) hu
  rw [hsecond, hfirst, List.append_assoc, List.singleton_append]

end Sys2Proof.Proofs
